-- ==== Sys2Proof/Word.lean ====
section
/-! DEFINITION. The words of the block: bytes, 72-bit command words, 64-bit bitmaps and the key index
(spec/00_scope.md R9, R10; spec/30_encoding.md R47). -/

namespace Sys2Proof

/-- A byte of the outbound stream, or an 8-bit command field. -/
abbrev Byte := BitVec 8

/-- The command word `W[71:0]` (R47). -/
abbrev CommandWord := BitVec 72

/-- A 64-bit bitmap, bit i for key i: 1 pressed, 0 released (R10). -/
abbrev Bitmap := BitVec 64

/-- A 64-bit result or binary64 bit pattern (R55, R97). -/
abbrev Word64 := BitVec 64

/-- A key index, 0..63 (R10). -/
abbrev Key := Fin 64

/-- The 64 keys in ascending index (R11 `for i in 0..63 ascending`). -/
def keys : List Key := List.finRange 64

end Sys2Proof
end

