-- ==== Sys2Proof/Syntax.lean ====
section
/-! DEFINITION. The eleven commands of spec/opcode_table.json (spec/30_encoding.md R52), with the operands of R51. -/

namespace Sys2Proof

/-- A command. Channels are carried as the source's 1-based number, and every 8-bit argument over its whole
encodable range, so that an out-of-range argument can be presented and dropped (R51). -/
inductive Instr where
  /-- NOTE_ON ch, note, vel (R83). -/
  | noteOn (ch note vel : Byte)
  /-- NOTE_OFF ch, note, vel (R84). -/
  | noteOff (ch note vel : Byte)
  /-- CONTROL_CHANGE ch, ctl, val (R85). -/
  | controlChange (ch ctl val : Byte)
  /-- PROGRAM_CHANGE ch, prog (R86). -/
  | programChange (ch prog : Byte)
  /-- PITCH_BEND ch, value, the value signed, centre 0 (R87). -/
  | pitchBend (ch : Byte) (value : Int)
  /-- ALL_NOTES_OFF ch (R88). -/
  | allNotesOff (ch : Byte)
  /-- SEND_RAW [b0, ...], at most 7 bytes (R82). -/
  | sendRaw (bytes : List Byte)
  /-- MIDI_INIT (R81). -/
  | midiInit
  /-- SCAN_CYCLE raw (R60). -/
  | scanCycle (raw : Bitmap)
  /-- NOTE_NAME "text", at most 7 ASCII characters (R89). -/
  | noteName (chars : List Byte)
  /-- NOTE_FREQ note (R97). -/
  | noteFreq (note : Byte)
deriving DecidableEq, Repr

end Sys2Proof
end

