-- ==== Sys2Proof/WellFormed.lean ====
section
/-! DEFINITION. Which terms of `Instr` have an encoding: every operand fits its field (spec/30_encoding.md R51, R57
"An operand that does not fit its field (rule R51) is refused"). -/

namespace Sys2Proof

/-- The range of field `V`: `sext_16(DATA[15:0])`, -32768..32767 (R51). -/
def pitchFits (value : Int) : Bool :=
  decide (-32768 ≤ value) && decide (value ≤ 32767)

/-- The range of field `LEN`: 0..7 list bytes (R51). -/
def listFits (bytes : List Byte) : Bool :=
  decide (bytes.length ≤ 7)

/-- Every operand fits its field. The 8-bit and 64-bit operands fit by their types. -/
def Instr.wellFormed : Instr → Bool
  | .noteOn _ _ _ => true
  | .noteOff _ _ _ => true
  | .controlChange _ _ _ => true
  | .programChange _ _ => true
  | .pitchBend _ value => pitchFits value
  | .allNotesOff _ => true
  | .sendRaw bytes => listFits bytes
  | .midiInit => true
  | .scanCycle _ => true
  | .noteName chars => listFits chars
  | .noteFreq _ => true

/-- The proposition that an instruction is well formed. -/
abbrev Instr.WellFormed (i : Instr) : Prop := i.wellFormed = true

end Sys2Proof
end

