-- ==== Sys2Proof/Decode.lean ====
section
/-! DEFINITION. The decoder and the encoder of the 72-bit command word (spec/30_encoding.md R47 to R54), the
pseudo-instructions of R58, and the opcode-table reader the host calls. -/

namespace Sys2Proof

/-- Why a word is no command. -/
inductive DecodeError where
  /-- OP is not in the map of R52 (R53). -/
  | illegalOpcode (op : Byte)
deriving DecidableEq, Repr

/-- `OP = W[71:64]` (R47). -/
def opField (w : CommandWord) : Byte := w.extractLsb' 64 8

/-- Field `A = DATA[23:16]` (R51). -/
def fieldA (w : CommandWord) : Byte := w.extractLsb' 16 8

/-- Field `B = DATA[15:8]` (R51). -/
def fieldB (w : CommandWord) : Byte := w.extractLsb' 8 8

/-- Field `C = DATA[7:0]`, also field `N` (R51). -/
def fieldC (w : CommandWord) : Byte := w.extractLsb' 0 8

/-- Field `V = sext_16(DATA[15:0])` (R51). -/
def fieldV (w : CommandWord) : Int := (w.extractLsb' 0 16).toInt

/-- Field `R = DATA[63:0]` (R51). -/
def fieldR (w : CommandWord) : Bitmap := w.extractLsb' 0 64

/-- Field `LEN = DATA[58:56]` (R51). -/
def fieldLen (w : CommandWord) : Nat := (w.extractLsb' 56 3).toNat

/-- `BYTEk = DATA[8k+7:8k]` (R51). -/
def fieldByte (w : CommandWord) (k : Nat) : Byte := w.extractLsb' (8 * k) 8

/-- The list `BYTE0, ..., BYTE(LEN-1)` (R51); bytes at positions k >= LEN are ignored (R54). -/
def fieldList (w : CommandWord) : List Byte := (List.range (fieldLen w)).map (fieldByte w)

/-- The opcode map (R52): OP alone selects the command; an OP outside the map is illegal (R53). -/
def decode (w : CommandWord) : Except DecodeError Instr :=
  match (opField w).toNat with
  | 0x01 => .ok (.noteOn (fieldA w) (fieldB w) (fieldC w))
  | 0x02 => .ok (.noteOff (fieldA w) (fieldB w) (fieldC w))
  | 0x03 => .ok (.controlChange (fieldA w) (fieldB w) (fieldC w))
  | 0x04 => .ok (.programChange (fieldA w) (fieldB w))
  | 0x05 => .ok (.pitchBend (fieldA w) (fieldV w))
  | 0x06 => .ok (.allNotesOff (fieldA w))
  | 0x07 => .ok (.sendRaw (fieldList w))
  | 0x08 => .ok .midiInit
  | 0x10 => .ok (.scanCycle (fieldR w))
  | 0x20 => .ok (.noteName (fieldList w))
  | 0x21 => .ok (.noteFreq (fieldC w))
  | _ => .error (.illegalOpcode (opField w))

/-- The OP of each command (R52). -/
def Instr.opcode : Instr → Byte
  | .noteOn _ _ _ => 0x01#8
  | .noteOff _ _ _ => 0x02#8
  | .controlChange _ _ _ => 0x03#8
  | .programChange _ _ => 0x04#8
  | .pitchBend _ _ => 0x05#8
  | .allNotesOff _ => 0x06#8
  | .sendRaw _ => 0x07#8
  | .midiInit => 0x08#8
  | .scanCycle _ => 0x10#8
  | .noteName _ => 0x20#8
  | .noteFreq _ => 0x21#8

/-- Formats F_ABC, F_AB and F_A (R50): `A` over `B` over `C`, the bits above them 0. -/
def dataABC (a b c : Byte) : Word64 := (a ++ b ++ c).setWidth 64

/-- Format F_PB (R50): `A` over the 16-bit two's-complement value (R57 `value mod 2^16`). -/
def dataPB (a : Byte) (value : Int) : Word64 := (a ++ BitVec.ofInt 16 value).setWidth 64

/-- The bytes of a list from position k on, byte k in `DATA[8k+7:8k]` (R51). -/
def packBytes : List Byte → Word64
  | [] => 0#64
  | b :: rest => b.setWidth 64 ||| packBytes rest <<< 8

/-- Format F_LIST (R50): `LEN` in `DATA[58:56]`, the list bytes below it, the rest 0. -/
def dataList (bytes : List Byte) : Word64 :=
  (BitVec.ofNat 3 bytes.length).setWidth 64 <<< 56 ||| packBytes bytes

/-- The operand field of each command, ignored bits 0 (R50, R57). -/
def Instr.data : Instr → Word64
  | .noteOn ch note vel => dataABC ch note vel
  | .noteOff ch note vel => dataABC ch note vel
  | .controlChange ch ctl val => dataABC ch ctl val
  | .programChange ch prog => dataABC ch prog 0#8
  | .pitchBend ch value => dataPB ch value
  | .allNotesOff ch => dataABC ch 0#8 0#8
  | .sendRaw bytes => dataList bytes
  | .midiInit => 0#64
  | .scanCycle raw => raw
  | .noteName chars => dataList chars
  | .noteFreq note => dataABC 0#8 0#8 note

/-- The command word of an instruction: `OP` over `DATA` (R47, R57). -/
def encode (i : Instr) : CommandWord := i.opcode ++ i.data

/-- Pseudo-instruction `SCAN32 raw32` (R58): the 32-bit bitmap of the source's scan, zero-extended. -/
def scan32 (raw32 : BitVec 32) : Instr := .scanCycle (raw32.setWidth 64)

/-- Pseudo-instruction `NOTE ch, note, vel, on|off` (R58). -/
def noteOnOff (ch note vel : Byte) (on : Bool) : Instr :=
  if on then .noteOn ch note vel else .noteOff ch note vel

/-- A table row's word as a command word: one 72-bit word, bit 0 least significant, the bits above `nbits` 0. -/
def tableWord (nbits w : Nat) : CommandWord := BitVec.ofNat 72 (w % 2 ^ nbits)

/-- What the decoder reads from a word numbered as spec/opcode_table.json numbers it; none where it refuses. -/
def decodeTableWord (nbits w : Nat) : Option Instr :=
  match decode (tableWord nbits w) with
  | .ok i => some i
  | .error _ => none

end Sys2Proof
end

