-- ==== Sys2Proof/Machine/Operands.lean ====
section
/-! DEFINITION. The ranges the midi_encoder checks and the bytes it builds (spec/41_midi_encoder.md R74 to R77). -/

namespace Sys2Proof.Machine

/-- A channel argument is in 1..16 (R83). -/
def channelOk (ch : Byte) : Bool := decide (1 ≤ ch.toNat) && decide (ch.toNat ≤ 16)

/-- A note, controller, program, value or Note Off velocity argument is in 0..127 (R83 to R86). -/
def sevenBitOk (v : Byte) : Bool := decide (v.toNat ≤ 127)

/-- A Note On velocity argument is in 1..127 (R83). -/
def noteOnVelocityOk (vel : Byte) : Bool := decide (1 ≤ vel.toNat) && decide (vel.toNat ≤ 127)

/-- A pitch-bend value is in -8192..8191 (R87). -/
def pitchOk (value : Int) : Bool := decide (-8192 ≤ value) && decide (value ≤ 8191)

/-- The status byte `OPC | (ch - 1)` (R75; the parentheses are 90_conflicts.md C8's). -/
def statusByte (opc ch : Byte) : Byte := opc ||| (ch - 1#8)

/-- A data byte `v & 0x7F` (R76). -/
def dataByte (v : Nat) : Byte := BitVec.ofNat 8 (v &&& 0x7F)

/-- The status opcodes of R77. Those of Control Change, Program Change and Pitch Bend are MIDI 1.0's (log 16). -/
def opcNoteOff : Byte := 0x80#8
def opcNoteOn : Byte := 0x90#8
def opcControlChange : Byte := 0xB0#8
def opcProgramChange : Byte := 0xC0#8
def opcPitchBend : Byte := 0xE0#8

end Sys2Proof.Machine
end

