-- ==== Sys2Proof/Machine/Binary64.lean ====
section
/-! DEFINITION. The value of an IEEE 754 binary64 pattern as an exact rational, and the tolerance law that
spec/42_note_conversion.md R98 puts on FREQ_FN, decided in exact arithmetic (log 13). -/

namespace Sys2Proof.Machine

/-- The binary64 pattern of 440.0 (R97). -/
def binary64Of440 : Word64 := 0x407B800000000000#64

/-- The exact value of a finite binary64 pattern; none for an infinity or a NaN. -/
def binary64Value (x : Word64) : Option Rat :=
  let e := (x.extractLsb' 52 11).toNat
  let m := (x.extractLsb' 0 52).toNat
  if e = 2047 then none
  else
    let magnitude : Rat :=
      if e = 0 then (m : Rat) / (2 ^ 1074 : Nat)
      else if 1075 ≤ e then ((2 ^ 52 + m) * 2 ^ (e - 1075) : Nat)
      else ((2 ^ 52 + m : Nat) : Rat) / (2 ^ (1075 - e) : Nat)
    some (if x.getLsbD 63 then -magnitude else magnitude)

/-- The twelfth power of the exact frequency `f(n) = 440 * 2^((n-69)/12)` (R98), which is rational. -/
def freqPow12 (n : Nat) : Rat :=
  if 69 ≤ n then (440 ^ 12 * 2 ^ (n - 69) : Nat) else ((440 ^ 12 : Nat) : Rat) / (2 ^ (69 - n) : Nat)

/-- `a * f <= b`, for the positive `f` whose twelfth power is `f12`: decided by comparing twelfth powers. -/
def scaledLe (f12 a b : Rat) : Bool :=
  if 0 < a then decide (0 ≤ b) && decide (a ^ 12 * f12 ≤ b ^ 12)
  else decide (0 ≤ b) || decide (b ^ 12 ≤ a ^ 12 * f12)

/-- R98 law 2 at note n for the pattern x: `|x - f(n)| <= tol * f(n)`, said as
`(1 - tol) * f(n) <= x` and `-(1 + tol) * f(n) <= -x`. -/
def withinTolerance (tol : Rat) (n : Nat) (x : Word64) : Bool :=
  match binary64Value x with
  | none => false
  | some v => scaledLe (freqPow12 n) (1 - tol) v && scaledLe (freqPow12 n) (-(1 + tol)) (-v)

/-- The laws of R98 on a table of 128 patterns: 440.0 exactly at note 69, and every note within tolerance.
Law 3 (the value depends on the note alone) holds of any table. -/
def freqLawsOk (table : Vector Word64 128) (tol : Rat) : Bool :=
  decide (0 < tol) && table[69] == binary64Of440
    && (List.finRange 128).all fun n => withinTolerance tol n.val table[n]

end Sys2Proof.Machine
end

