-- ==== Sys2Proof/Config.lean ====
section
/-! DEFINITION. The implementation parameters of spec/00_scope.md R7, with their constraints, and the opaque
constant that stands for the OPEN ones at reset. A configuration outside its constraints has no value of type
`Config`: that is how the model refuses it (log 1). -/

namespace Sys2Proof

/-- RESET_KIND (R7, R114): OPEN, and no rule depends on it (log 15). -/
inductive ResetKind where
  | synchronous
  | asynchronous
deriving DecidableEq, Repr, Inhabited

/-- The constraints R7 puts on the OPEN parameters: MIDI_CHANNEL in 1..16, VEL_ON in 1..127, VEL_OFF in 0..127,
and the laws of R98 on FREQ_FN and FREQ_TOL. NOTE_TABLE has none beyond its 8-bit entries (R26). -/
def setupOk (midiChannel velOn velOff : Byte) (freqFn : Vector Word64 128) (freqTol : Rat) : Bool :=
  decide (1 ≤ midiChannel.toNat ∧ midiChannel.toNat ≤ 16)
    && decide (1 ≤ velOn.toNat ∧ velOn.toNat ≤ 127)
    && decide (velOff.toNat ≤ 127)
    && Machine.freqLawsOk freqFn freqTol

/-- The OPEN parameters of R7, "supplied once" at setup (R8). The default values only show that a value of the
type exists (`Config.boardSetup` needs that); nothing is read from them, and no statement rests on them (log 2). -/
structure Setup where
  /-- `NOTE_TABLE[0..63]` (R26). -/
  noteTable : Vector Byte 64 := Vector.replicate 64 0#8
  /-- `MIDI_CHANNEL`, 1..16. -/
  midiChannel : Byte := 1#8
  /-- `VEL_ON`, 1..127. -/
  velOn : Byte := 1#8
  /-- `VEL_OFF`, 0..127. -/
  velOff : Byte := 0#8
  /-- `FREQ_FN`, note 0..127 to a binary64 pattern (R98). -/
  freqFn : Vector Word64 128 := Vector.ofFn fun n => if n.val = 69 then Machine.binary64Of440 else 0#64
  /-- `FREQ_TOL`, positive (R98). -/
  freqTol : Rat := 1
  /-- `RESET_KIND` (R114). -/
  resetKind : ResetKind := .synchronous
  /-- `CMD_LATENCY` (R124), in units the spec does not give (log 15). -/
  cmdLatency : Nat := 0
  /-- The constraints hold. -/
  ok : setupOk midiChannel velOn velOff freqFn freqTol = true := by decide +kernel
deriving DecidableEq, Repr, Inhabited

/-- The constraints of R7 on THRESH and CNT_W. -/
def thresholdOk (thresh cntW : Nat) : Bool :=
  decide (1 ≤ cntW) && decide (1 ≤ thresh) && decide (thresh ≤ 2 ^ cntW - 1)

/-- The parameters of R7, fixed for a whole run (R8). NKEYS is fixed at 64 (R7), the type `Key`. -/
structure Config where
  /-- `THRESH`, default 3. -/
  thresh : Nat := 3
  /-- `CNT_W`, default 8. -/
  cntW : Nat := 8
  /-- `RAW32`, default false. -/
  raw32 : Bool := false
  /-- The OPEN parameters. -/
  setup : Setup
  /-- The constraints on THRESH and CNT_W hold. -/
  ok : thresholdOk thresh cntW = true := by decide
deriving DecidableEq, Repr

/-- FREE VALUE (log 2): the OPEN parameters of the machine that leaves reset. Nothing in Lean can evaluate it. -/
opaque Config.boardSetup : Setup

/-- The configuration of the machine that leaves reset: the spec's defaults (R7), and the OPEN parameters free. -/
def Config.board : Config := { setup := Config.boardSetup }

/-- FREE VALUE (log 20): what `rsp_result` holds where the spec states no value for it, one for each place in the
sequence of responses. Nothing in Lean can evaluate it. -/
opaque Config.freeResult : Nat → Word64

end Sys2Proof
end

