-- ==== Sys2Proof/Machine/State.lean ====
section
/-! DEFINITION. The state of the block (spec/10_state.md R13, R14), the inputs the outside world gives it, the
state right after reset (spec/70_reset_and_hazards.md R113), and the reasons a step can stop. -/

namespace Sys2Proof.Machine

/-- A response on the response interface (spec/30_encoding.md R55). -/
structure Response where
  /-- `rsp_has_result`. -/
  hasResult : Bool
  /-- `rsp_result[63:0]`. -/
  result : Word64
deriving DecidableEq, Repr

/-- How many more bytes the transport accepts before it stops accepting (spec/20_memory.md R40, R112). -/
inductive TxCredit where
  /-- It accepts every byte it is offered. -/
  | unlimited
  /-- It accepts `n` more bytes and then none, until its readiness changes. -/
  | bytes (n : Nat)
deriving DecidableEq, Repr

/-- What the outside world does at the block's pins. -/
inductive Input where
  /-- The host presents a command word and holds `cmd_valid` until the block accepts it (R48). -/
  | command (w : CommandWord)
  /-- `rst` is asserted (R114). -/
  | rst
  /-- The transport's readiness changes (R40). -/
  | transport (credit : TxCredit)
deriving DecidableEq, Repr

/-- A command the transport has not let complete (R48, R112): its bytes not yet accepted, in order, and the response
it gives when the last of them is. -/
structure InFlight where
  rest : List Byte
  response : Response
deriving DecidableEq, Repr

/-- The state. RAW, STABLE, PREV, CNT and INIT are the registers (R13); `tx`, `txBefore`, `responses` and `inFlight`
are the output history and the interface values (R14); `inputs` and `txCredit` are the outside world; `cfg` is the
configuration, which no step writes (R8). -/
structure State where
  /-- `RAW` (R19). -/
  raw : Bitmap
  /-- `STABLE` (R20). -/
  stable : Bitmap
  /-- `PREV` (R21). -/
  prev : Bitmap
  /-- `CNT[0..63]` (R22), natural numbers that fit CNT_W bits by the invariant of R27 (log 4). -/
  cnt : Vector Nat 64
  /-- `INIT` (R23). -/
  init : Bool
  /-- `TX` since the last reset (R35, R113), oldest first. -/
  tx : List Byte
  /-- The bytes emitted before the last reset, which stay on the wire (R115; log 8). -/
  txBefore : List Byte
  /-- The responses given, one for each completed command, oldest first (R55; log 9). Its length is the counter that
  the free value of log 20 is read at. -/
  responses : List Response
  /-- The command in flight, if the transport holds one up (R48; log 7). -/
  inFlight : Option InFlight
  /-- What arrives at the pins, oldest first (R47, R114; log 5). -/
  inputs : List Input
  /-- The transport's readiness (R40; log 12). -/
  txCredit : TxCredit
  /-- The parameters (00_scope.md R7; log 1). -/
  cfg : Config
deriving DecidableEq, Repr

/-- The state right after reset (R113): registers 0, TX empty, no command in flight. The configuration is the spec's
defaults with the OPEN parameters free (log 2); the outside world has presented nothing (log 5) and its transport is
ready (log 12). -/
def State.reset : State where
  raw := 0#64
  stable := 0#64
  prev := 0#64
  cnt := Vector.replicate 64 0
  init := false
  tx := []
  txBefore := []
  responses := []
  inFlight := none
  inputs := []
  txCredit := .unlimited
  cfg := Config.board

/-- Why the machine stops with a fault: never. "The block raises no exception and has no trap. No command faults,
aborts or halts the block" (60_exceptions.md R100). -/
inductive Fault
deriving DecidableEq, Repr

/-- Why a step has no meaning. -/
inductive Refusal where
  /-- An instruction whose meaning is not written yet; raised by `exec` alone, and by no arm of it now. Safe. -/
  | notModelled (mnemonic : String)
  /-- The step was started in a state that breaks the invariants of 10_state.md R27 and R28, which no run from reset
  reaches: "a model refuses it as a start state". Raised by `step` alone. Safe (log 10). -/
  | unreachableState
  /-- No step: the block waits with `cmd_ready = 0` on a transport that does not accept, and nothing but presented
  commands is to come (60_exceptions.md R105, R112: "no step (stuck), not ... a fault and not ... a skipped byte").
  Raised by `step` alone. Not final: it steps again once the transport accepts or `rst` comes. Safe (log 6). -/
  | transportStall
deriving DecidableEq, Repr

end Sys2Proof.Machine
end

