-- ==== Sys2Proof/Machine/Ops.lean ====
section
/-! DEFINITION. The shared operations: bitmaps by key, the byte emitter (spec/41_midi_encoder.md R80), the response
(spec/30_encoding.md R55), the command and transport handshakes (R48; spec/20_memory.md R40), reset
(spec/70_reset_and_hazards.md R113 to R115), the start-state check (spec/10_state.md R27, R28) and the observation
outputs (R30). There is no exception to take and none to return from (spec/60_exceptions.md R100, R105). -/

namespace Sys2Proof.Machine

/-- The bit of key i in a bitmap (R10). -/
def key (v : Bitmap) (i : Key) : Bool := v[i.val]

/-- The bitmap with the given bit for each key (R10). -/
def bitmapOf (f : Key → Bool) : Bitmap := BitVec.ofFnLE f

/-- The counter CNT[i] (R22). -/
def State.count (s : State) (i : Key) : Nat := s.cnt[i.val]

/-- The response of the commands without a result: `rsp_has_result = 0`, and "`rsp_result` is then 0" (R55, which says so
of every command but NOTE_NAME and NOTE_FREQ). -/
def Response.none : Response := ⟨false, 0#64⟩

/-- The response that carries a result (R55). -/
def Response.value (v : Word64) : Response := ⟨true, v⟩

/-- The response of NOTE_FREQ where it gives no result (R99): `rsp_has_result = 0`. What `rsp_result` then holds is not
stated, so it is an argument (log 20). -/
def Response.unstated (v : Word64) : Response := ⟨false, v⟩

/-- The free value of `rsp_result` for the next response (log 20): the responses given so far are its counter. -/
def State.freeResult (s : State) : Word64 := Config.freeResult s.responses.length

/-- `respond`: the command completes with a response (R11, R55). -/
def State.respond (s : State) (r : Response) : State := { s with responses := s.responses ++ [r] }

/-- `emit(b)`: append a byte to the end of TX (R11, R35). -/
def State.emit (s : State) (b : Byte) : State := { s with tx := s.tx ++ [b] }

/-- SendBytes, the send_raw primitive (R80): nothing while INIT = 0, nothing for the empty list, else every byte
unmodified, in order. -/
def State.sendBytes (s : State) (bytes : List Byte) : State :=
  if s.init = false then s
  else if bytes.length = 0 then s
  else bytes.foldl State.emit s

/-- A message that passed its range checks is handed to SendBytes whole; one that failed them is a silent no-op (R74). -/
def State.sendMessage (s : State) (message : Option (List Byte)) : State :=
  match message with
  | none => s
  | some bytes => s.sendBytes bytes

/-- An illegal command (R53): no state changes, nothing is emitted, and the response carries no result (log 17). -/
def execIllegal (s : State) : Host.Outcome State Fault Refusal := .next (s.respond Response.none)

/-- `cmd_ready` (R48): 0 while a command is in flight. -/
def State.cmdReady (s : State) : Bool := s.inFlight.isNone

/-- The next input the block takes, and the inputs left. While it is not ready a presented command waits, and `rst`
and the transport, which are other pins, are taken before it (R48, R114; log 19). -/
def takeInput (ready : Bool) : List Input → Option (Input × List Input)
  | [] => none
  | .command w :: rest =>
    if ready then some (.command w, rest)
    else (takeInput ready rest).map fun taken => (taken.1, .command w :: taken.2)
  | .rst :: rest => some (.rst, rest)
  | .transport credit :: rest => some (.transport credit, rest)

/-- What the block does when there is no input it can take. Ready, it holds its state and waits for a command (R111;
log 11). With a command in flight it waits on the transport and there is no step (R105, R112; log 6). -/
def State.await (s : State) : Host.Outcome State Fault Refusal :=
  if s.cmdReady then .next s else .refused .transportStall

/-- Offer a command's bytes to the transport (R40, R48). The command completes, and responds, when the last byte is
accepted, at once if there is none; else the bytes accepted are on TX and the command stays in flight (R112). -/
def State.transmit (s : State) (bytes : List Byte) (r : Response) : State :=
  match s.txCredit with
  | .unlimited => { s with tx := s.tx ++ bytes, inFlight := none, responses := s.responses ++ [r] }
  | .bytes n =>
    if bytes.length ≤ n then
      { s with tx := s.tx ++ bytes, inFlight := none, responses := s.responses ++ [r],
               txCredit := .bytes (n - bytes.length) }
    else
      { s with tx := s.tx ++ bytes.take n, inFlight := some ⟨bytes.drop n, r⟩, txCredit := .bytes 0 }

/-- Pass a command's effect through the transport: `before` is the state it started in, `after` the state its rule
gives, with all its bytes and its response (R42). -/
def State.deliver (before after : State) : State :=
  { after with tx := before.tx, responses := before.responses }.transmit
    (after.tx.drop before.tx.length) (after.responses.getLastD Response.none)

/-- The transport's readiness changes; a command in flight goes on with the bytes left (R40, R121). -/
def State.offer (s : State) (credit : TxCredit) : State :=
  match s.inFlight with
  | none => { s with txCredit := credit }
  | some f => { s with txCredit := credit }.transmit f.rest f.response

/-- Assert `rst` (R113 to R115): every register, TX and the command in flight go to their reset values, whatever they
held; the bytes already emitted stay on the wire; parameters do not change; the outside world is not touched. -/
def State.assertReset (s : State) : State :=
  { State.reset with
    txBefore := s.txBefore ++ s.tx
    responses := s.responses
    inputs := s.inputs
    txCredit := s.txCredit
    cfg := s.cfg }

/-- R27 for key i: CNT[i] < THRESH; CNT[i] = 0 exactly when RAW[i] = STABLE[i]; and a key that flipped in the last
cycle has no pending count. -/
def State.keyOk (s : State) (i : Key) : Bool :=
  decide (s.count i < s.cfg.thresh)
    && (decide (s.count i = 0) == (key s.raw i == key s.stable i))
    && (key s.stable i == key s.prev i || decide (s.count i = 0))

/-- R28 for key i: with RAW32, keys 32..63 are 0 in RAW, STABLE, PREV and CNT. -/
def State.ceilingOk (s : State) (i : Key) : Bool :=
  !s.cfg.raw32 || decide (i.val < 32)
    || (!key s.raw i && !key s.stable i && !key s.prev i && decide (s.count i = 0))

/-- A command in flight has a byte left to send (R48: it completes with its last byte). -/
def State.inFlightOk (s : State) : Bool :=
  match s.inFlight with
  | none => true
  | some f => decide (f.rest ≠ [])

/-- The start states the model accepts (R27, R28; log 10). -/
def State.startOk (s : State) : Bool :=
  s.inFlightOk && keys.all fun i => s.keyOk i && s.ceilingOk i

/-- The bytes on the wire so far, those before the last reset included (R35, R115). -/
def State.wire (s : State) : List Byte := s.txBefore ++ s.tx

/-- `tx_valid` and `tx_byte` (R40): the byte offered to a transport that has stopped accepting. -/
def State.txByte (s : State) : Option Byte := s.inFlight.bind fun f => f.rest.head?

end Sys2Proof.Machine
end

