-- ==== Sys2Proof/Machine/Conversion.lean ====
section
/-! DEFINITION. The note conversions NOTE_NAME and NOTE_FREQ (spec/42_note_conversion.md). -/

namespace Sys2Proof.Machine

/-- LETTER: the semitone of each natural letter `A`..`G`, none for any other character (R90, R91; log 16). -/
def letterSemitone (letter : Byte) : Option Nat :=
  match letter.toNat with
  | 0x43 => some 0
  | 0x44 => some 2
  | 0x45 => some 4
  | 0x46 => some 5
  | 0x47 => some 7
  | 0x41 => some 9
  | 0x42 => some 11
  | _ => none

/-- The semitone after the accidental (R92, R93): `#` raises by one but not on E or B, `b` lowers by one but not on
C or F, and nothing else is an accidental. -/
def withAccidental (letter : Byte) (semitone : Nat) (accidental : Option Byte) : Option Nat :=
  match accidental with
  | none => some semitone
  | some a =>
    if a = 0x23#8 then
      if letter = 0x45#8 ∨ letter = 0x42#8 then none else some (semitone + 1)
    else if a = 0x62#8 then
      if letter = 0x43#8 ∨ letter = 0x46#8 then none else some (semitone - 1)
    else none

/-- The octave of a digit `0`..`9` (R90). -/
def octaveDigit (digit : Byte) : Option Nat :=
  if 0x30 ≤ digit.toNat ∧ digit.toNat ≤ 0x39 then some (digit.toNat - 0x30) else none

/-- The note number of a semitone and an octave, none above 127 (R94, R95). -/
def noteInOctave (octave semitone : Nat) : Option Byte :=
  let n := (octave + 1) * 12 + semitone
  if 127 < n then none else some (BitVec.ofNat 8 n)

/-- The note number of a letter, an optional accidental and an octave digit, none where a rule makes it invalid. -/
def namedNote (letter : Byte) (accidental : Option Byte) (digit : Byte) : Option Byte := do
  let natural ← letterSemitone letter
  let semitone ← withAccidental letter natural accidental
  let octave ← octaveDigit digit
  noteInOctave octave semitone

/-- NoteNameToNumber (R89): 0..127, or 255 for an invalid name. -/
def noteNameToNumber (s : List Byte) : Byte :=
  match s with
  | [letter, digit] => (namedNote letter none digit).getD 255#8
  | [letter, accidental, digit] => (namedNote letter (some accidental) digit).getD 255#8
  | _ => 255#8

/-- NOTE_NAME (R89): always a result, `zext_64` of the 8-bit number. -/
def execNoteName (chars : List Byte) (s : State) : Host.Outcome State Fault Refusal :=
  .next (s.respond (Response.value ((noteNameToNumber chars).setWidth 64)))

/-- The response of NOTE_FREQ (R97, R99): FREQ_FN(N) for N in 0..127, no result above, where the value of `rsp_result`
is not stated and is the argument `unstated` (log 20). -/
def freqResponse (freqFn : Vector Word64 128) (note : Byte) (unstated : Word64) : Response :=
  if h : note.toNat < 128 then Response.value freqFn[note.toNat] else Response.unstated unstated

/-- NOTE_FREQ (R97). -/
def execNoteFreq (note : Byte) (s : State) : Host.Outcome State Fault Refusal :=
  .next (s.respond (freqResponse s.cfg.setup.freqFn note s.freeResult))

end Sys2Proof.Machine
end

