-- ==== Sys2Proof/Machine/Flags.lean ====
section
/-! DEFINITION. The flags and derived values: INIT, the block's only flag (spec/10_state.md R17, R23), the
combinational CHANGES (R24), and the observation outputs (R30). -/

namespace Sys2Proof.Machine

/-- `INIT <- 1` (R81). -/
def State.setInit (s : State) : State := { s with init := true }

/-- CHANGES: the 64-bit combinational value `STABLE ^ PREV`, not stored (R24). -/
def State.changes (s : State) : Bitmap := s.stable ^^^ s.prev

/-- The observation outputs of R30, for counters of `w` bits. -/
structure Ports (w : Nat) where
  rawQ : Bitmap
  stableQ : Bitmap
  prevQ : Bitmap
  changesQ : Bitmap
  cntQ : Vector (BitVec w) 64
  initQ : Bool
deriving DecidableEq, Repr

/-- The observation outputs "equal its state between commands" (R30); while a command is in flight nothing is
observable (R42; log 7). -/
def State.ports (s : State) : Option (Ports s.cfg.cntW) :=
  if s.cmdReady then
    some { rawQ := s.raw, stableQ := s.stable, prevQ := s.prev, changesQ := s.changes,
           cntQ := s.cnt.map (BitVec.ofNat s.cfg.cntW), initQ := s.init }
  else none

end Sys2Proof.Machine
end

