-- ==== Sys2Proof/Machine/Encoder.lean ====
section
/-! DEFINITION. The midi_encoder's messages and its eight commands (spec/41_midi_encoder.md). A message is none where
a range check fails (R74). -/

namespace Sys2Proof.Machine

/-- The Note On message (R83). -/
def noteOnMessage (ch note vel : Byte) : Option (List Byte) :=
  if channelOk ch && sevenBitOk note && noteOnVelocityOk vel then
    some [statusByte opcNoteOn ch, dataByte note.toNat, dataByte vel.toNat]
  else none

/-- The Note Off message (R84). -/
def noteOffMessage (ch note vel : Byte) : Option (List Byte) :=
  if channelOk ch && sevenBitOk note && sevenBitOk vel then
    some [statusByte opcNoteOff ch, dataByte note.toNat, dataByte vel.toNat]
  else none

/-- The Control Change message (R85). -/
def controlChangeMessage (ch ctl val : Byte) : Option (List Byte) :=
  if channelOk ch && sevenBitOk ctl && sevenBitOk val then
    some [statusByte opcControlChange ch, dataByte ctl.toNat, dataByte val.toNat]
  else none

/-- The Program Change message (R86). -/
def programChangeMessage (ch prog : Byte) : Option (List Byte) :=
  if channelOk ch && sevenBitOk prog then
    some [statusByte opcProgramChange ch, dataByte prog.toNat]
  else none

/-- The Pitch Bend message (R87): the 14-bit value `u = v + 8192`, low 7 bits first (R38). -/
def pitchBendMessage (ch : Byte) (value : Int) : Option (List Byte) :=
  if channelOk ch && pitchOk value then
    let u := (value + 8192).toNat
    some [statusByte opcPitchBend ch, dataByte u, dataByte (u >>> 7)]
  else none

/-- NOTE_ON (R83). -/
def execNoteOn (ch note vel : Byte) (s : State) : Host.Outcome State Fault Refusal :=
  .next ((s.sendMessage (noteOnMessage ch note vel)).respond Response.none)

/-- NOTE_OFF (R84). -/
def execNoteOff (ch note vel : Byte) (s : State) : Host.Outcome State Fault Refusal :=
  .next ((s.sendMessage (noteOffMessage ch note vel)).respond Response.none)

/-- CONTROL_CHANGE (R85). -/
def execControlChange (ch ctl val : Byte) (s : State) : Host.Outcome State Fault Refusal :=
  .next ((s.sendMessage (controlChangeMessage ch ctl val)).respond Response.none)

/-- PROGRAM_CHANGE (R86). -/
def execProgramChange (ch prog : Byte) (s : State) : Host.Outcome State Fault Refusal :=
  .next ((s.sendMessage (programChangeMessage ch prog)).respond Response.none)

/-- PITCH_BEND (R87). -/
def execPitchBend (ch : Byte) (value : Int) (s : State) : Host.Outcome State Fault Refusal :=
  .next ((s.sendMessage (pitchBendMessage ch value)).respond Response.none)

/-- ALL_NOTES_OFF: CONTROL_CHANGE semantics with (ch, 123, 0) (R88). -/
def execAllNotesOff (ch : Byte) (s : State) : Host.Outcome State Fault Refusal :=
  .next ((s.sendMessage (controlChangeMessage ch 123#8 0#8)).respond Response.none)

/-- SEND_RAW: SendBytes of the list, unmodified (R82). -/
def execSendRaw (bytes : List Byte) (s : State) : Host.Outcome State Fault Refusal :=
  .next ((s.sendBytes bytes).respond Response.none)

/-- MIDI_INIT (R81). -/
def execMidiInit (s : State) : Host.Outcome State Fault Refusal :=
  .next (s.setInit.respond Response.none)

end Sys2Proof.Machine
end

