-- ==== Sys2Proof/Machine/Scan.lean ====
section
/-! DEFINITION. SCAN_CYCLE: raw capture, snapshot, the 64 debounce lanes, the change set and the key events
(spec/40_scan_debounce.md R60 to R69). -/

namespace Sys2Proof.Machine

/-- Raw capture (R61): `R`, or `zext_64(R[31:0])` with RAW32. -/
def captureRaw (raw32 : Bool) (r : Bitmap) : Bitmap :=
  if raw32 then (r.setWidth 32).setWidth 64 else r

/-- One key's debounce (R63, R64): from STABLE[i], CNT[i] and the raw reading to STABLE[i] and CNT[i] after. -/
def debounceLane (thresh : Nat) (rawPressed stablePressed : Bool) (count : Nat) : Bool × Nat :=
  if rawPressed = stablePressed then (stablePressed, 0)
  else
    let c := count + 1
    if c = thresh then (rawPressed, 0) else (stablePressed, c)

/-- The lane of key i for the captured bitmap r (R65: it reads only r[i], STABLE[i] and CNT[i]). -/
def State.lane (s : State) (r : Bitmap) (i : Key) : Bool × Nat :=
  debounceLane s.cfg.thresh (key r i) (key s.stable i) (s.count i)

/-- The 64 lanes at once (R65 "all at once, as 64 parallel lanes"; log 14). -/
def State.debounceAll (s : State) (r : Bitmap) : State :=
  { s with stable := bitmapOf fun i => (s.lane r i).1
           cnt := Vector.ofFn fun i => (s.lane r i).2 }

/-- `DebounceKey(i, r[i])` of R63 as one update of the state: the pseudocode's own form, for one key. -/
def State.debounceKey (r : Bitmap) (s : State) (i : Key) : State :=
  { s with stable := bitmapOf fun j => if j = i then (s.lane r i).1 else key s.stable j
           cnt := s.cnt.set i (s.lane r i).2 }

/-- The debounce of R60 key by key, in the given order; R65 says that the order does not matter. -/
def State.debounceInOrder (order : List Key) (s : State) (r : Bitmap) : State :=
  order.foldl (State.debounceKey r) s

/-- The message of key i's event (R69): Note On if STABLE[i] is now 1, else Note Off, on MIDI_CHANNEL, with the note
NOTE_TABLE[i] and the fixed velocity. -/
def State.keyMessage (s : State) (i : Key) : Option (List Byte) :=
  let p := s.cfg.setup
  if key s.stable i then noteOnMessage p.midiChannel p.noteTable[i.val] p.velOn
  else noteOffMessage p.midiChannel p.noteTable[i.val] p.velOff

/-- `KeyEvent(i)`, if the bit of key i is set in the change set (R60, R69). -/
def State.keyEvent (changed : Bitmap) (s : State) (i : Key) : State :=
  if key changed i then s.sendMessage (s.keyMessage i) else s

/-- The registers after a scan: RAW captured (R61), PREV the snapshot of STABLE (R62), then the debounce (R63). -/
def State.scanRegisters (s : State) (r : Bitmap) : State :=
  { s with raw := r, prev := s.stable }.debounceAll r

/-- One event per change, in ascending key index, each in full before the next (R67, R68). -/
def State.keyEvents (s : State) : State := keys.foldl (State.keyEvent s.changes) s

/-- SCAN_CYCLE (R60). -/
def execScanCycle (raw : Bitmap) (s : State) : Host.Outcome State Fault Refusal :=
  .next ((s.scanRegisters (captureRaw s.cfg.raw32 raw)).keyEvents.respond Response.none)

end Sys2Proof.Machine
end

