-- ==== Sys2Proof/Machine/Dispatch.lean ====
section
/-! DEFINITION. One arm per command, each a direct call of its meaning. -/

namespace Sys2Proof.Machine

def exec (i : Instr) (s : State) : Host.Outcome State Fault Refusal :=
  match i with
  | .noteOn ch note vel => Sys2Proof.Machine.execNoteOn ch note vel s
  | .noteOff ch note vel => Sys2Proof.Machine.execNoteOff ch note vel s
  | .controlChange ch ctl val => Sys2Proof.Machine.execControlChange ch ctl val s
  | .programChange ch prog => Sys2Proof.Machine.execProgramChange ch prog s
  | .pitchBend ch value => Sys2Proof.Machine.execPitchBend ch value s
  | .allNotesOff ch => Sys2Proof.Machine.execAllNotesOff ch s
  | .sendRaw bytes => Sys2Proof.Machine.execSendRaw bytes s
  | .midiInit => Sys2Proof.Machine.execMidiInit s
  | .scanCycle raw => Sys2Proof.Machine.execScanCycle raw s
  | .noteName chars => Sys2Proof.Machine.execNoteName chars s
  | .noteFreq note => Sys2Proof.Machine.execNoteFreq note s

end Sys2Proof.Machine
end

