-- ==== Sys2Proof/Machine/Step.lean ====
section
/-! DEFINITION. One step of the block: take the next input; a command word is decoded, executed as one atomic command
and passed through the transport (spec/20_memory.md R42; spec/30_encoding.md R48). -/

namespace Sys2Proof.Machine

/-- The effect of a command word, its bytes all accepted: the decoded instruction's, or the illegal command's (R53). -/
def runCommand (w : CommandWord) (s : State) : Host.Outcome State Fault Refusal :=
  match decode w with
  | .ok i => exec i s
  | .error _ => execIllegal s

/-- Accept a command: run it, then pass its bytes and its response through the transport (R42, R48). -/
def acceptCommand (w : CommandWord) (s : State) : Host.Outcome State Fault Refusal :=
  match runCommand w s with
  | .next t => .next (s.deliver t)
  | .fault r => .fault r
  | .refused r => .refused r

/-- One step. A start state that breaks R27 or R28 is refused. With no input to take the block waits: for a
command, holding its state, or, with one in flight, on the transport, and then there is no step (R105, R112). -/
def step (s : State) : Host.Outcome State Fault Refusal :=
  if s.startOk then
    match takeInput s.cmdReady s.inputs with
    | none => s.await
    | some (.command w, rest) => acceptCommand w { s with inputs := rest }
    | some (.rst, rest) => .next { s with inputs := rest }.assertReset
    | some (.transport credit, rest) => .next ({ s with inputs := rest }.offer credit)
  else .refused .unreachableState

/-- `s` with a command word presented by the host as its next input and the command interface ready for it (log 5). -/
def State.withFetchWord (s : State) (nbits w : Nat) : State :=
  { s with inputs := .command (tableWord nbits w) :: s.inputs, inFlight := none }

end Sys2Proof.Machine
end

