-- ==== Sys2Proof/Machine/Assembler.lean ====
section
/-! DEFINITION. The assembler syntax of spec/30_encoding.md R57 and the pseudo-instructions of R58: one line of text to
one command word, none where the line is refused (log 18). -/

namespace Sys2Proof.Machine

/-- The tokens of a line. -/
inductive Token where
  | word (chars : List Char)
  | int (value : Int)
  | text (chars : List Char)
  | comma
  | openBracket
  | closeBracket
deriving DecidableEq, Repr

/-- The value of a hexadecimal digit, either case. -/
def digitValue (c : Char) : Option Nat :=
  let n := c.toNat
  if 48 ≤ n ∧ n ≤ 57 then some (n - 48)
  else if 65 ≤ n ∧ n ≤ 70 then some (n - 55)
  else if 97 ≤ n ∧ n ≤ 102 then some (n - 87)
  else none

/-- The value of a digit string in a base; `_` only groups digits (00_scope.md R9), and is skipped wherever it stands
(log 18). -/
def digitsValue (base acc : Nat) : List Char → Option Nat
  | [] => some acc
  | c :: rest =>
    if c = '_' then digitsValue base acc rest
    else
      match digitValue c with
      | none => none
      | some d => if d < base then digitsValue base (acc * base + d) rest else none

/-- The value of a literal's digits in a base. DESIGN CHOICE (log 18): a literal without a digit, empty or of
underscores alone (`0x`, `0x_`, `-`, `-_`), is refused; R9 says only that `_` groups digits. -/
def literalValue (base : Nat) (digits : List Char) : Option Nat :=
  if digits.all (· = '_') then none else digitsValue base 0 digits

/-- "Integer operands are decimal or `0x` hex" (R57). -/
def natValue : List Char → Option Nat
  | '0' :: 'x' :: digits => literalValue 16 digits
  | digits => literalValue 10 digits

/-- A run of characters between delimiters: an integer if it begins with a digit or a minus sign, else a word. DESIGN
CHOICE (log 18): R57 and R9 do not say how a sign, an underscore and the first digit may stand. An underscore between
the minus sign and the first digit is skipped (`-_5` is -5), and a run that begins with an underscore is a word. -/
def wordToken (chars : List Char) : Option Token :=
  match chars with
  | [] => none
  | '-' :: digits => (natValue digits).map fun n => .int (-n)
  | c :: rest => if c.isDigit then (natValue (c :: rest)).map fun n => .int n else some (.word (c :: rest))

/-- The tokens a delimiter stands for; none for a character that is no delimiter. -/
def delimiter (c : Char) : Option (List Token) :=
  if c = ' ' then some []
  else if c = ',' then some [.comma]
  else if c = '[' then some [.openBracket]
  else if c = ']' then some [.closeBracket]
  else none

/-- Where the lexer is: between tokens, in a word, or in a quoted text; characters so far, last first. -/
inductive LexMode where
  | between
  | inWord (acc : List Char)
  | inText (acc : List Char)
deriving DecidableEq, Repr

/-- The tokens of a line, none if a literal is malformed or a text is not closed. -/
def lexLine : LexMode → List Char → Option (List Token)
  | .between, [] => some []
  | .inWord acc, [] => (wordToken acc.reverse).map fun t => [t]
  | .inText _, [] => none
  | .between, c :: rest =>
    if c = '"' then lexLine (.inText []) rest
    else
      match delimiter c with
      | some ts => (lexLine .between rest).map fun more => ts ++ more
      | none => lexLine (.inWord [c]) rest
  | .inWord acc, c :: rest =>
    match delimiter c with
    | some ts => do
      let t ← wordToken acc.reverse
      let more ← lexLine .between rest
      return t :: ts ++ more
    | none => lexLine (.inWord (c :: acc)) rest
  | .inText acc, c :: rest =>
    if c = '"' then (lexLine .between rest).map fun more => .text acc.reverse :: more
    else lexLine (.inText (c :: acc)) rest

/-- An operand of an 8-bit field: refused if it does not fit (R57). -/
def byteOperand (v : Int) : Option Byte :=
  if 0 ≤ v ∧ v ≤ 255 then some (BitVec.ofInt 8 v) else none

/-- An operand of an unsigned field of `w` bits (R57). -/
def wideOperand (w : Nat) (v : Int) : Option (BitVec w) :=
  if 0 ≤ v ∧ v < 2 ^ w then some (BitVec.ofInt w v) else none

/-- The bytes between the brackets of SEND_RAW: none at all, or bytes with commas between them (R57). -/
def listOperand : List Token → Option (List Byte)
  | [.closeBracket] => some []
  | [.int b, .closeBracket] => (byteOperand b).map fun x => [x]
  | .int b :: .comma :: rest => do
    let x ← byteOperand b
    let more ← listOperand rest
    if more.isEmpty then none else return x :: more
  | _ => none

/-- The ASCII codes of a quoted name (R57). -/
def asciiOperand : List Char → Option (List Byte)
  | [] => some []
  | c :: rest =>
    if c.toNat < 128 then (asciiOperand rest).map fun more => BitVec.ofNat 8 c.toNat :: more else none

/-- Three 8-bit operands with commas between them. -/
def threeBytes (make : Byte → Byte → Byte → Instr) : List Token → Option Instr
  | [.int a, .comma, .int b, .comma, .int c] => do
    return make (← byteOperand a) (← byteOperand b) (← byteOperand c)
  | _ => none

/-- The command a mnemonic and its operand tokens stand for, pseudo-instructions of R58 included. An operand that fits
its field but is out of the source's range is accepted (R57). -/
def assembleOperands (mnemonic : String) (operands : List Token) : Option Instr :=
  match mnemonic, operands with
  | "NOTE_ON", ops => threeBytes .noteOn ops
  | "NOTE_OFF", ops => threeBytes .noteOff ops
  | "CONTROL_CHANGE", ops => threeBytes .controlChange ops
  | "PROGRAM_CHANGE", [.int a, .comma, .int b] => do return .programChange (← byteOperand a) (← byteOperand b)
  | "PITCH_BEND", [.int a, .comma, .int v] => do
    let ch ← byteOperand a
    if pitchFits v then return .pitchBend ch v else none
  | "ALL_NOTES_OFF", [.int a] => (byteOperand a).map .allNotesOff
  | "SEND_RAW", .openBracket :: ops => do
    let bytes ← listOperand ops
    if listFits bytes then return .sendRaw bytes else none
  | "MIDI_INIT", [] => some .midiInit
  | "SCAN_CYCLE", [.int r] => (wideOperand 64 r).map .scanCycle
  | "NOTE_NAME", [.text chars] => do
    let bytes ← asciiOperand chars
    if listFits bytes then return .noteName bytes else none
  | "NOTE_FREQ", [.int n] => (byteOperand n).map .noteFreq
  | "SCAN32", [.int r] => (wideOperand 32 r).map scan32
  | "NOTE", [.int a, .comma, .int b, .comma, .int c, .comma, .word ['o', 'n']] =>
    threeBytes (fun ch note vel => noteOnOff ch note vel true) [.int a, .comma, .int b, .comma, .int c]
  | "NOTE", [.int a, .comma, .int b, .comma, .int c, .comma, .word ['o', 'f', 'f']] =>
    threeBytes (fun ch note vel => noteOnOff ch note vel false) [.int a, .comma, .int b, .comma, .int c]
  | _, _ => none

/-- The word of a line's tokens: `.word72 w` gives w itself, any other line the encoding of its command (R57). -/
def assembleTokens : List Token → Option CommandWord
  | .word mnemonic :: operands =>
    match String.ofList mnemonic, operands with
    | ".word72", [.int w] => wideOperand 72 w
    | m, ops => (assembleOperands m ops).map encode
  | _ => none

/-- Assemble one line (R57 "one command per line"). -/
def assemble (line : String) : Option CommandWord := do
  let tokens ← lexLine .between line.toList
  assembleTokens tokens

end Sys2Proof.Machine
end

