-- ==== Sys2Proof/Safety.lean ====
section
/-! DEFINITION. What counts as a safe state and a run, in the terms the statements use: the invariants of
spec/10_state.md R27 and R28 written out, and the states a run from reset reaches. -/

namespace Sys2Proof.Machine

/-- The invariants of R27 and R28, and of the handshake (R48), of the state between two steps. -/
structure State.Inv (s : State) : Prop where
  /-- R27, 1. -/
  counterBelow : ∀ i : Key, s.count i < s.cfg.thresh
  /-- R27, 2. -/
  counterZero : ∀ i : Key, s.count i = 0 ↔ key s.raw i = key s.stable i
  /-- R27, 3. -/
  flippedIdle : ∀ i : Key, key s.stable i ≠ key s.prev i → s.count i = 0
  /-- R28. -/
  ceiling : s.cfg.raw32 = true → ∀ i : Key, 32 ≤ i.val →
    key s.raw i = false ∧ key s.stable i = false ∧ key s.prev i = false ∧ s.count i = 0
  /-- A command in flight has a byte left to send (R48). -/
  inFlightLeft : ∀ f, s.inFlight = some f → f.rest ≠ []

/-- The block right after reset, with a configuration, inputs to come and a transport of the outside world's choice
(R113, R116). -/
def State.start (cfg : Config) (inputs : List Input) (credit : TxCredit) : State :=
  { State.reset with cfg := cfg, inputs := inputs, txCredit := credit }

/-- The states a run from reset reaches, under every configuration and whatever the outside world does. -/
inductive Reachable : State → Prop where
  | start (cfg : Config) (inputs : List Input) (credit : TxCredit) : Reachable (State.start cfg inputs credit)
  | step {s t : State} : Reachable s → step s = .next t → Reachable t

end Sys2Proof.Machine
end

