-- ==== Sys2Proof/Certificates/Slice0/Obligations.lean ====
section
/-! DEFINITION. The statements about the model, each a proposition with a name that says what it states, and the few
definitions they are written with. Nothing is proved here. -/

namespace Sys2Proof.Claims

open Sys2Proof.Machine

/-- The response without a result (spec/30_encoding.md R55). -/
def noResult : Response := ⟨false, 0#64⟩

/-- `s` after a command that emitted `bytes`, responded `r` and did nothing else. -/
def answered (s : State) (bytes : List Byte) (r : Response) : State :=
  { s with tx := s.tx ++ bytes, responses := s.responses ++ [r] }

/-- `s` with the input at the head of its inputs taken. -/
def taken (s : State) (rest : List Input) : State := { s with inputs := rest }

/-- The opcodes outside the map (R53: 0x00, 0x09 to 0x0F, 0x11 to 0x1F, 0x22 to 0xFF). -/
def IllegalOpcode (op : Nat) : Prop :=
  op = 0x00 ∨ (0x09 ≤ op ∧ op ≤ 0x0F) ∨ (0x11 ≤ op ∧ op ≤ 0x1F) ∨ (0x22 ≤ op ∧ op ≤ 0xFF)

/-- The bits of a word that its format reads (R50): OP, the fields of the format, and of a list LEN and the bytes below
LEN. The other bits are the ones R54 says are ignored. -/
def usedBits (w : CommandWord) : CommandWord :=
  0xFF_0000000000000000#72 |||
    match (w.extractLsb' 64 8).toNat with
    | 0x01 => 0x00_0000000000FFFFFF#72
    | 0x02 => 0x00_0000000000FFFFFF#72
    | 0x03 => 0x00_0000000000FFFFFF#72
    | 0x04 => 0x00_0000000000FFFF00#72
    | 0x05 => 0x00_0000000000FFFFFF#72
    | 0x06 => 0x00_0000000000FF0000#72
    | 0x07 => 0x00_0700000000000000#72 ||| BitVec.ofNat 72 (2 ^ (8 * (w.extractLsb' 56 3).toNat) - 1)
    | 0x10 => 0x00_FFFFFFFFFFFFFFFF#72
    | 0x20 => 0x00_0700000000000000#72 ||| BitVec.ofNat 72 (2 ^ (8 * (w.extractLsb' 56 3).toNat) - 1)
    | 0x21 => 0x00_00000000000000FF#72
    | _ => 0#72

/-- The tokens of integer operands, with commas between them (R57). -/
def operandTokens (values : List Int) : List Token := (values.map Token.int).intersperse .comma

/-- The integer operands among a line's tokens, in order. -/
def integers (operands : List Token) : List Int :=
  operands.filterMap fun t =>
    match t with
    | .int v => some v
    | .word _ => none
    | .text _ => none
    | .comma => none
    | .openBracket => none
    | .closeBracket => none

/-- The least and the greatest value of the field of a mnemonic's k-th integer operand (R51, R58). -/
def fieldRange : String → Nat → Int × Int
  | "PITCH_BEND", 1 => (-32768, 32767)
  | "SCAN_CYCLE", _ => (0, 2 ^ 64 - 1)
  | "SCAN32", _ => (0, 2 ^ 32 - 1)
  | _, _ => (0, 255)

/-- The rows of R57 and R58: a mnemonic, its operands, each the value of its field, and the command they stand for. -/
inductive AssemblesTo : String → List Token → Instr → Prop where
  | noteOn (ch note vel : Byte) :
    AssemblesTo "NOTE_ON" (operandTokens [ch.toNat, note.toNat, vel.toNat]) (.noteOn ch note vel)
  | noteOff (ch note vel : Byte) :
    AssemblesTo "NOTE_OFF" (operandTokens [ch.toNat, note.toNat, vel.toNat]) (.noteOff ch note vel)
  | controlChange (ch ctl val : Byte) :
    AssemblesTo "CONTROL_CHANGE" (operandTokens [ch.toNat, ctl.toNat, val.toNat]) (.controlChange ch ctl val)
  | programChange (ch prog : Byte) :
    AssemblesTo "PROGRAM_CHANGE" (operandTokens [ch.toNat, prog.toNat]) (.programChange ch prog)
  | pitchBend (ch : Byte) (value : Int) (low : -32768 ≤ value) (high : value ≤ 32767) :
    AssemblesTo "PITCH_BEND" (operandTokens [ch.toNat, value]) (.pitchBend ch value)
  | allNotesOff (ch : Byte) : AssemblesTo "ALL_NOTES_OFF" (operandTokens [ch.toNat]) (.allNotesOff ch)
  | sendRaw (bytes : List Byte) (fits : bytes.length ≤ 7) :
    AssemblesTo "SEND_RAW"
      (.openBracket :: operandTokens (bytes.map fun b => (b.toNat : Int)) ++ [.closeBracket]) (.sendRaw bytes)
  | midiInit : AssemblesTo "MIDI_INIT" [] .midiInit
  | scanCycle (raw : Bitmap) : AssemblesTo "SCAN_CYCLE" (operandTokens [raw.toNat]) (.scanCycle raw)
  | noteName (chars : List Char) (ascii : ∀ c ∈ chars, c.toNat < 128) (fits : chars.length ≤ 7) :
    AssemblesTo "NOTE_NAME" [.text chars] (.noteName (chars.map fun c => BitVec.ofNat 8 c.toNat))
  | noteFreq (note : Byte) : AssemblesTo "NOTE_FREQ" (operandTokens [note.toNat]) (.noteFreq note)
  | scan32 (raw : BitVec 32) :
    AssemblesTo "SCAN32" (operandTokens [raw.toNat]) (.scanCycle (raw.setWidth 64))
  | noteWithOn (ch note vel : Byte) :
    AssemblesTo "NOTE" (operandTokens [ch.toNat, note.toNat, vel.toNat] ++ [.comma, .word ['o', 'n']])
      (.noteOn ch note vel)
  | noteWithOff (ch note vel : Byte) :
    AssemblesTo "NOTE" (operandTokens [ch.toNat, note.toNat, vel.toNat] ++ [.comma, .word ['o', 'f', 'f']])
      (.noteOff ch note vel)

/-- A presented command, as against the other inputs. -/
def isCommand : Input → Bool
  | .command _ => true
  | .rst => false
  | .transport _ => false

/-- The argument ranges of 41_midi_encoder.md. -/
def ChannelInRange (ch : Byte) : Prop := 1 ≤ ch.toNat ∧ ch.toNat ≤ 16

/-- The state after one scan, read off `exec`. -/
def scanOnce (s : State) (r : Bitmap) : State :=
  match exec (.scanCycle r) s with
  | .next t => t
  | .fault _ => s
  | .refused _ => s

/-- The state after a sequence of scans. -/
def scanAll (s : State) (scans : List Bitmap) : State := scans.foldl scanOnce s

/-- The reading of key i in a presented bitmap: with RAW32 the bits 63..32 read 0 (R61). -/
def reading (s : State) (r : Bitmap) (i : Key) : Bool :=
  if s.cfg.raw32 = true ∧ 32 ≤ i.val then false else r.getLsbD i.val

/-- The bytes of a key event (R69) with the parameters of `s`: `pressed` chooses Note On or Note Off. An entry of
NOTE_TABLE above 127 drops the event (R72). -/
def eventOf (s : State) (pressed : Bool) (i : Key) : List Byte :=
  let p := s.cfg.setup
  if 127 < (p.noteTable[i.val]).toNat then []
  else if pressed then [0x90#8 ||| (p.midiChannel - 1#8), p.noteTable[i.val], p.velOn]
  else [0x80#8 ||| (p.midiChannel - 1#8), p.noteTable[i.val], p.velOff]

/-- The channel argument of a message command. -/
def channelOf : Instr → Option Byte
  | .noteOn ch _ _ => some ch
  | .noteOff ch _ _ => some ch
  | .controlChange ch _ _ => some ch
  | .programChange ch _ => some ch
  | .pitchBend ch _ => some ch
  | .allNotesOff ch => some ch
  | .sendRaw _ => none
  | .midiInit => none
  | .scanCycle _ => none
  | .noteName _ => none
  | .noteFreq _ => none

/-- The total bytes of a message (R77). -/
def messageLength : Instr → Nat
  | .programChange _ _ => 2
  | _ => 3

/-- The seventeen note names without their octave digit, and the semitone of each (R91 to R93). -/
def namesOfSemitones : List (List Byte × Nat) :=
  [([0x43#8], 0), ([0x43#8, 0x23#8], 1), ([0x44#8, 0x62#8], 1), ([0x44#8], 2), ([0x44#8, 0x23#8], 3),
    ([0x45#8, 0x62#8], 3), ([0x45#8], 4), ([0x46#8], 5), ([0x46#8, 0x23#8], 6), ([0x47#8, 0x62#8], 6),
    ([0x47#8], 7), ([0x47#8, 0x23#8], 8), ([0x41#8, 0x62#8], 8), ([0x41#8], 9), ([0x41#8, 0x23#8], 10),
    ([0x42#8, 0x62#8], 10), ([0x42#8], 11)]

/-- The response of NOTE_NAME to a number. -/
def numbered (n : Nat) : Response := ⟨true, BitVec.ofNat 64 n⟩

/-- The state after one command word, read off `runCommand`. -/
def afterWord (s : State) (w : CommandWord) : State :=
  match runCommand w s with
  | .next t => t
  | .fault _ => s
  | .refused _ => s

end Sys2Proof.Claims

open Sys2Proof Sys2Proof.Machine Sys2Proof.Claims

/-! ### Encoding (spec/30_encoding.md) -/

/-- Sanity: words written out in spec/95_test_vectors.md, one of each command and an illegal one, decode as there. -/
def Obligations.WrittenWordsDecode : Prop :=
  decode 0x01_0000000000013C64#72 = .ok (.noteOn 1 60 100) ∧
  decode 0x02_000000000010007F#72 = .ok (.noteOff 16 0 127) ∧
  decode 0x03_0000000000010764#72 = .ok (.controlChange 1 7 100) ∧
  decode 0x04_00000000000105FF#72 = .ok (.programChange 1 5) ∧
  decode 0x05_000000000002E000#72 = .ok (.pitchBend 2 (-8192)) ∧
  decode 0x06_0000000000100000#72 = .ok (.allNotesOff 16) ∧
  decode 0x07_0200000000AAFAF8#72 = .ok (.sendRaw [0xF8, 0xFA]) ∧
  decode 0x08_FFFFFFFFFFFFFFFF#72 = .ok .midiInit ∧
  decode 0x10_8000000000000000#72 = .ok (.scanCycle 0x8000000000000000) ∧
  decode 0x20_0300000000356244#72 = .ok (.noteName [0x44, 0x62, 0x35]) ∧
  decode 0x21_0000000000000045#72 = .ok (.noteFreq 69) ∧
  decode 0x09_0000000000013C64#72 = .error (.illegalOpcode 0x09)

/-- R51 and R52: OP alone selects the command, and each field is read where R51 puts it. -/
def Obligations.OpcodeSelectsAndFieldsAreRead : Prop :=
  ∀ w : CommandWord,
    (w.extractLsb' 64 8 = 0x01#8 →
      decode w = .ok (.noteOn (w.extractLsb' 16 8) (w.extractLsb' 8 8) (w.extractLsb' 0 8))) ∧
    (w.extractLsb' 64 8 = 0x02#8 →
      decode w = .ok (.noteOff (w.extractLsb' 16 8) (w.extractLsb' 8 8) (w.extractLsb' 0 8))) ∧
    (w.extractLsb' 64 8 = 0x03#8 →
      decode w = .ok (.controlChange (w.extractLsb' 16 8) (w.extractLsb' 8 8) (w.extractLsb' 0 8))) ∧
    (w.extractLsb' 64 8 = 0x04#8 → decode w = .ok (.programChange (w.extractLsb' 16 8) (w.extractLsb' 8 8))) ∧
    (w.extractLsb' 64 8 = 0x05#8 → ∃ v : Int, decode w = .ok (.pitchBend (w.extractLsb' 16 8) v) ∧
      v = (if w.getLsbD 15 then ((w.extractLsb' 0 16).toNat : Int) - 65536 else (w.extractLsb' 0 16).toNat)) ∧
    (w.extractLsb' 64 8 = 0x06#8 → decode w = .ok (.allNotesOff (w.extractLsb' 16 8))) ∧
    (w.extractLsb' 64 8 = 0x07#8 → ∃ bytes, decode w = .ok (.sendRaw bytes) ∧
      bytes.length = (w.extractLsb' 56 3).toNat ∧
      ∀ k (h : k < bytes.length), bytes[k] = w.extractLsb' (8 * k) 8) ∧
    (w.extractLsb' 64 8 = 0x08#8 → decode w = .ok .midiInit) ∧
    (w.extractLsb' 64 8 = 0x10#8 → decode w = .ok (.scanCycle (w.extractLsb' 0 64))) ∧
    (w.extractLsb' 64 8 = 0x20#8 → ∃ chars, decode w = .ok (.noteName chars) ∧
      chars.length = (w.extractLsb' 56 3).toNat ∧
      ∀ k (h : k < chars.length), chars[k] = w.extractLsb' (8 * k) 8) ∧
    (w.extractLsb' 64 8 = 0x21#8 → decode w = .ok (.noteFreq (w.extractLsb' 0 8)))

/-- Decode and encode agree: every well-formed command is read back from its word, every operand at every value its
field admits. -/
def Obligations.DecodeOfEncodeIsIdentity : Prop :=
  ∀ i : Instr, i.WellFormed → decode (encode i) = .ok i

/-- The other direction: what a word decodes to is well formed, and its encoding is the word with the ignored bits
cleared, so that decoding drops no bit its format reads. -/
def Obligations.EncodeOfDecodeClearsIgnoredBits : Prop :=
  ∀ (w : CommandWord) (i : Instr), decode w = .ok i → i.WellFormed ∧ encode i = w &&& usedBits w

/-- R54: a word that differs only in ignored bits has the same behaviour. -/
def Obligations.IgnoredBitsChangeNothing : Prop :=
  ∀ (w w' : CommandWord) (s : State),
    w' &&& usedBits w = w &&& usedBits w → runCommand w' s = runCommand w s

/-- R53: the illegal opcodes are the ones listed, and an illegal command is accepted and completes at once as a silent
no-op, whatever the transport does. -/
def Obligations.IllegalCommandIsSilentNoOp : Prop :=
  (∀ w : CommandWord, IllegalOpcode (w.extractLsb' 64 8).toNat ↔ ∃ e, decode w = .error e) ∧
  (∀ (s : State) (w : CommandWord) (rest : List Input),
    s.Inv → s.inFlight = none → s.inputs = .command w :: rest → IllegalOpcode (w.extractLsb' 64 8).toNat →
    step s = .next (answered (taken s rest) [] noResult))

/-- R57, R58: the assembler accepts exactly the rows listed there, each integer operand being the value of its field; an
integer out of the range of its field is refused; what is accepted is well formed, and its word decodes to it; and a
line's word is the one given after `.word72`, if it fits 72 bits, or else the encoding of its command. (How a line is
split into tokens is the model's, log 18.) -/
def Obligations.AssembledCommandsFitTheirFields : Prop :=
  (∀ (mnemonic : String) (operands : List Token) (i : Instr),
    assembleOperands mnemonic operands = some i ↔ AssemblesTo mnemonic operands i) ∧
  (∀ (mnemonic : String) (operands : List Token) (k : Nat) (v : Int),
    (integers operands)[k]? = some v → (v < (fieldRange mnemonic k).1 ∨ (fieldRange mnemonic k).2 < v) →
    assembleOperands mnemonic operands = none) ∧
  (∀ (mnemonic : String) (operands : List Token) (i : Instr),
    assembleOperands mnemonic operands = some i → i.WellFormed ∧ decode (encode i) = .ok i) ∧
  (∀ (operands : List Token) (w : CommandWord),
    assembleTokens (.word ".word72".toList :: operands) = some w ↔ operands = operandTokens [w.toNat]) ∧
  (∀ (name : List Char) (operands : List Token) (w : CommandWord), String.ofList name ≠ ".word72" →
    (assembleTokens (.word name :: operands) = some w ↔
      ∃ i, AssemblesTo (String.ofList name) operands i ∧ w = encode i))

/-- Sanity: lines of spec/95_test_vectors.md assemble to the words there, a pseudo-instruction to its expansion, and an
operand that does not fit is refused. -/
def Obligations.WrittenLinesAssemble : Prop :=
  assemble "NOTE_ON 1, 60, 100" = some 0x01_0000000000013C64#72 ∧
  assemble "PITCH_BEND 1, -8193" = some 0x05_000000000001DFFF#72 ∧
  assemble "SEND_RAW [0xF8, 0xFA, 0xFF]" = some 0x07_0300000000FFFAF8#72 ∧
  assemble "SEND_RAW []" = some 0x07_0000000000000000#72 ∧
  assemble "NOTE_NAME \"Db5\"" = some 0x20_0300000000356244#72 ∧
  assemble "SCAN32 0x80000" = some 0x10_0000000000080000#72 ∧
  assemble "NOTE 1, 60, 0, off" = some 0x02_0000000000013C00#72 ∧
  assemble ".word72 0x7F_0000000000000000" = some 0x7F_0000000000000000#72 ∧
  assemble "NOTE_ON 17, 60, 100" = some 0x01_0000000000113C64#72 ∧
  assemble "NOTE_ON 256, 60, 100" = none

/-! ### The step, the handshakes and reset -/

/-- A step runs the decoded command: from a state with the invariants and no command in flight, the command presented
next is executed, and its bytes and response pass through the transport, all at once if the transport accepts them. -/
def Obligations.StepRunsPresentedCommand : Prop :=
  ∀ (s : State) (w : CommandWord) (rest : List Input) (i : Instr),
    s.Inv → s.inFlight = none → s.inputs = .command w :: rest → decode w = .ok i →
    ∃ t, exec i (taken s rest) = .next t ∧ step s = .next (State.deliver (taken s rest) t) ∧
      (s.txCredit = .unlimited → step s = .next t)

/-- The block waits while nothing can be taken. Ready and with no input, it holds its state (R111; one idle step stands
for any time, log 11). With a command in flight and nothing but presented commands to come, cmd_ready is 0 and there is
no step (R105, R112; the outcome is the refusal `transportStall`, log 6); that is not final (D28): once the transport's
readiness changes, or `rst` comes, it steps again. -/
def Obligations.BlockHoldsWhileNothingCanBeTaken : Prop :=
  ∀ s : State, s.Inv →
    (s.inFlight = none → s.inputs = [] → s.cmdReady = true ∧ step s = .next s) ∧
    (∀ f, s.inFlight = some f → (∀ e ∈ s.inputs, isCommand e = true) →
      s.cmdReady = false ∧ step s = .refused .transportStall ∧
      (∀ credit, step { s with inputs := s.inputs ++ [.transport credit] } = .next (s.offer credit)) ∧
      step { s with inputs := s.inputs ++ [.rst] } = .next s.assertReset)

/-- With a command in flight no other is accepted (R48): every presented command is still waiting after the step, in
order, and the only response a step can give is the one of the command in flight, with all its bytes on TX. (That rst
and the transport are taken ahead of waiting commands, and that these survive a reset, is the model's choice, log 19.) -/
def Obligations.NoCommandAcceptedWhileInFlight : Prop :=
  ∀ (s t : State) (f : InFlight), s.Inv → s.inFlight = some f → step s = .next t →
    t.inputs.filter isCommand = s.inputs.filter isCommand ∧
    (t.responses = s.responses ∨
      (t.responses = s.responses ++ [f.response] ∧ t.tx = s.tx ++ f.rest ∧ t.cmdReady = true))

/-- R113: reset puts every register, CHANGES, TX and cmd_ready into its reset value, whatever they held before; a step
that takes `rst` does so; and State.reset has those values. That the parameters stay is R114 and R8. That the inputs and
the transport's readiness stay is the model's choice (log 5, log 12, log 19); that TX starts again beside the bytes of
before is its reading (log 8). -/
def Obligations.ResetPutsEveryPieceOfStateInPlace : Prop :=
  (∀ s : State, s.assertReset.raw = 0#64 ∧ s.assertReset.stable = 0#64 ∧ s.assertReset.prev = 0#64 ∧
    (∀ i : Key, s.assertReset.count i = 0) ∧ s.assertReset.init = false ∧ s.assertReset.changes = 0#64 ∧
    s.assertReset.tx = [] ∧ s.assertReset.cmdReady = true ∧ s.assertReset.cfg = s.cfg ∧
    s.assertReset.inputs = s.inputs ∧ s.assertReset.txCredit = s.txCredit) ∧
  (∀ (s : State) (rest : List Input), s.Inv → s.inputs = .rst :: rest →
    step s = .next (taken s rest).assertReset) ∧
  (State.reset.raw = 0#64 ∧ State.reset.stable = 0#64 ∧ State.reset.prev = 0#64 ∧
    (∀ i : Key, State.reset.count i = 0) ∧ State.reset.init = false ∧ State.reset.changes = 0#64 ∧
    State.reset.tx = [] ∧ State.reset.cmdReady = true)

/-- R115: a command abandoned by reset leaves on the wire the bytes the transport had accepted, every prefix possible,
the empty one included, and gives no response if it had not completed; the state after is that of reset. (The wire is
the model's `txBefore` and `tx` together, log 8.) -/
def Obligations.AbandonedCommandLeavesItsPrefix : Prop :=
  ∀ (s u : State) (w : CommandWord) (rest : List Input) (bytes : List Byte) (k : Nat),
    s.Inv → s.inFlight = none → s.inputs = .command w :: .rst :: rest → s.txCredit = .bytes k →
    runCommand w (taken s (.rst :: rest)) = .next u → u.tx = s.tx ++ bytes →
    ∃ t v, step s = .next t ∧ step t = .next v ∧ v.wire = s.wire ++ bytes.take k ∧
      (k < bytes.length → t.cmdReady = false ∧ v.responses = s.responses) ∧
      v.raw = 0#64 ∧ v.stable = 0#64 ∧ v.prev = 0#64 ∧ (∀ i : Key, v.count i = 0) ∧ v.init = false ∧ v.tx = [] ∧
      v.cmdReady = true ∧ v.cfg = s.cfg ∧ v.inputs = rest

/-- Back-pressure only delays: a transport that stops once, after any number of bytes, and then accepts every byte leaves
the block in the very state an always-ready transport would (R40: no byte is dropped, duplicated, reordered or altered). -/
def Obligations.BackPressureOnlyDelays : Prop :=
  ∀ (s : State) (w : CommandWord) (rest : List Input) (k : Nat),
    s.Inv → s.inFlight = none → s.inputs = .command w :: .transport .unlimited :: rest → s.txCredit = .bytes k →
    ∃ t v, step s = .next t ∧ step t = .next v ∧
      step { s with inputs := .command w :: rest, txCredit := .unlimited } = .next v

/-- R43: with a ready transport a run over a list of presented words is the fold of the single commands, in the order
presented: command n's state and bytes are complete before command n+1's. -/
def Obligations.RunIsTheFoldOfItsCommands : Prop :=
  ∀ (s : State) (words : List CommandWord),
    s.Inv → s.inFlight = none → s.txCredit = .unlimited → s.inputs = words.map .command →
    Host.Core.run Sys2Proof.core words.length s = .next (words.foldl afterWord (taken s []))

/-! ### Invariants and whole-machine rules -/

/-- The reset state has the invariants, under every configuration, inputs and transport. -/
def Obligations.ResetStateHasTheInvariants : Prop :=
  State.reset.Inv ∧ ∀ cfg inputs credit, (State.start cfg inputs credit).Inv

/-- Every step keeps the invariants of R27 and R28, from every state that has them. -/
def Obligations.EveryStepKeepsTheInvariants : Prop :=
  ∀ s t : State, s.Inv → step s = .next t → t.Inv

/-- R105: a run from reset stops on nothing but the transport: every reachable state has the invariants, and has either
a next state or no step because the block waits on the transport with a command in flight (R112; log 6). -/
def Obligations.RunsFromResetStopOnlyOnTheTransport : Prop :=
  ∀ s : State, Reachable s → s.Inv ∧
    ((∃ t, step s = .next t) ∨
      (step s = .refused .transportStall ∧ s.inFlight ≠ none ∧ ∀ e ∈ s.inputs, isCommand e = true))

/-- The states the model refuses as start states (log 10) are exactly those that break a clause of R27 or R28 or hold a
command in flight with no byte left, which are exactly those without the invariants. -/
def Obligations.StartStatesWithoutTheInvariantsAreRefused : Prop :=
  ∀ s : State,
    (step s = .refused .unreachableState ↔ ¬ s.Inv) ∧
    (¬ s.Inv ↔
      (∃ i : Key, s.cfg.thresh ≤ s.count i) ∨
      (∃ i : Key, s.count i = 0 ∧ key s.raw i ≠ key s.stable i) ∨
      (∃ i : Key, s.count i ≠ 0 ∧ key s.raw i = key s.stable i) ∨
      (∃ i : Key, key s.stable i ≠ key s.prev i ∧ s.count i ≠ 0) ∨
      (s.cfg.raw32 = true ∧ ∃ i : Key, 32 ≤ i.val ∧
        (key s.raw i = true ∨ key s.stable i = true ∨ key s.prev i = true ∨ s.count i ≠ 0)) ∨
      (∃ f, s.inFlight = some f ∧ f.rest = []))

/-- The counters fit in CNT_W bits (R22), and between commands the observation outputs equal the state (R30). -/
def Obligations.CountersFitAndPortsShowTheState : Prop :=
  ∀ s : State, s.Inv →
    (∀ i : Key, s.count i ≤ 2 ^ s.cfg.cntW - 1) ∧
    (s.inFlight = none → ∃ p, s.ports = some p ∧ p.rawQ = s.raw ∧ p.stableQ = s.stable ∧ p.prevQ = s.prev ∧
      p.changesQ = s.stable ^^^ s.prev ∧ p.initQ = s.init ∧ ∀ i : Key, (p.cntQ[i.val]).toNat = s.count i)

/-- R55, in part: every command gives exactly one response; only NOTE_NAME, and NOTE_FREQ in range, carry a result, and
`rsp_result` of every other command than these two is 0. -/
def Obligations.EveryCommandRespondsOnce : Prop :=
  ∀ (i : Instr) (s : State), ∃ t r, exec i s = .next t ∧ t.responses = s.responses ++ [r] ∧
    ((∀ chars, i ≠ .noteName chars) → (∀ note, i ≠ .noteFreq note) → r.result = 0#64) ∧
    (r.hasResult = true ↔ (∃ chars, i = .noteName chars) ∨ ∃ note, i = .noteFreq note ∧ note.toNat ≤ 127)

/-- The frame of every command: only SCAN_CYCLE writes RAW, STABLE, PREV and CNT, only MIDI_INIT writes INIT, TX only
grows at its end, and no command touches the parameters, the interface or the outside world. -/
def Obligations.CommandsWriteOnlyWhatTheyOwn : Prop :=
  ∀ (i : Instr) (s t : State), exec i s = .next t →
    ((∀ r, i ≠ .scanCycle r) → t.raw = s.raw ∧ t.stable = s.stable ∧ t.prev = s.prev ∧ t.cnt = s.cnt) ∧
    (i ≠ .midiInit → t.init = s.init) ∧
    t.cfg = s.cfg ∧ t.inputs = s.inputs ∧ t.txCredit = s.txCredit ∧ t.inFlight = s.inFlight ∧
    t.txBefore = s.txBefore ∧ s.tx <+: t.tx

/-- R25, over steps: RAW, STABLE, PREV and CNT are written only in a step that takes a SCAN_CYCLE or `rst`, INIT only in
one that takes a MIDI_INIT or `rst`, and nothing but `rst` clears INIT. -/
def Obligations.OnlyOwnersAndResetWriteTheRegisters : Prop :=
  ∀ s t : State, s.Inv → step s = .next t →
    (∀ rest, takeInput s.cmdReady s.inputs ≠ some (.rst, rest)) →
    ((∀ w rest r, takeInput s.cmdReady s.inputs = some (.command w, rest) → decode w ≠ .ok (.scanCycle r)) →
      t.raw = s.raw ∧ t.stable = s.stable ∧ t.prev = s.prev ∧ t.cnt = s.cnt) ∧
    ((∀ w rest, takeInput s.cmdReady s.inputs = some (.command w, rest) → decode w ≠ .ok .midiInit) →
      t.init = s.init) ∧
    (s.init = true → t.init = true)

/-- R8: no step writes a parameter, reset included. -/
def Obligations.NoStepWritesAParameter : Prop :=
  ∀ s t : State, step s = .next t → t.cfg = s.cfg

/-- R35: nothing removes or rewrites a byte once emitted: a step only adds bytes at the end of the wire, and only
reset starts TX again. -/
def Obligations.EmittedBytesStay : Prop :=
  ∀ s t : State, s.Inv → step s = .next t →
    s.wire <+: t.wire ∧ ((∀ rest, takeInput s.cmdReady s.inputs ≠ some (.rst, rest)) → s.tx <+: t.tx)

/-- R80: while INIT = 0 no command emits a byte. -/
def Obligations.UninitializedBlockIsSilent : Prop :=
  ∀ (i : Instr) (s : State), s.init = false → ∃ t, exec i s = .next t ∧ t.tx = s.tx

/-! ### The scan (spec/40_scan_debounce.md) -/

/-- R61: RAW is overwritten wholesale, with RAW32 by the low half, and the debounce of key i reads the bit captured;
and what a scan leaves alone. -/
def Obligations.ScanCapturesTheRawBitmap : Prop :=
  ∀ (r : Bitmap) (s : State), ∃ t, exec (.scanCycle r) s = .next t ∧
    t.raw = (if s.cfg.raw32 then (r.extractLsb' 0 32).setWidth 64 else r) ∧ t.prev = s.stable ∧
    t.init = s.init ∧ t.cfg = s.cfg ∧ t.inputs = s.inputs ∧ t.txCredit = s.txCredit ∧ t.inFlight = s.inFlight ∧
    t.txBefore = s.txBefore ∧ t.responses = s.responses ++ [noResult] ∧
    ∀ i : Key, key t.raw i = reading s r i ∧
      (key t.stable i, t.count i) = debounceLane s.cfg.thresh (key t.raw i) (key s.stable i) (s.count i)

/-- R63 and R64, for every key: agreement clears the counter; disagreement counts up; at THRESH the key commits, STABLE
takes the raw reading and the counter is cleared; the counter stays below THRESH if it was. -/
def Obligations.DebounceFollowsItsRules : Prop :=
  ∀ (r : Bitmap) (s : State), ∃ t, exec (.scanCycle r) s = .next t ∧ ∀ i : Key,
    (reading s r i = key s.stable i → key t.stable i = key s.stable i ∧ t.count i = 0) ∧
    (reading s r i ≠ key s.stable i → s.count i + 1 ≠ s.cfg.thresh →
      key t.stable i = key s.stable i ∧ t.count i = s.count i + 1) ∧
    (reading s r i ≠ key s.stable i → s.count i + 1 = s.cfg.thresh →
      key t.stable i = reading s r i ∧ key t.stable i ≠ key s.stable i ∧ t.count i = 0) ∧
    (s.count i < s.cfg.thresh → t.count i < s.cfg.thresh)

/-- R65: the 64 keys may be debounced one after another in any order, with the result of all at once; the lane of a
key reads only that key's raw bit, STABLE bit and counter, and writes only its STABLE bit and counter. -/
def Obligations.DebounceOrderDoesNotMatter : Prop :=
  (∀ (order : List Key) (s : State) (r : Bitmap), order.Perm keys → s.debounceInOrder order r = s.debounceAll r) ∧
  (∀ (s s' : State) (r r' : Bitmap) (i : Key), s.cfg.thresh = s'.cfg.thresh → reading s r i = reading s' r' i →
    key s.stable i = key s'.stable i → s.count i = s'.count i →
    key (scanOnce s r).stable i = key (scanOnce s' r').stable i ∧ (scanOnce s r).count i = (scanOnce s' r').count i) ∧
  (∀ (s : State) (r : Bitmap) (i j : Key), j ≠ i →
    key (State.debounceKey r s i).stable j = key s.stable j ∧ (State.debounceKey r s i).count j = s.count j ∧
    State.debounceKey r s i = { s with stable := (State.debounceKey r s i).stable, cnt := (State.debounceKey r s i).cnt })

/-- R67 to R69: the change set has the bit of exactly the keys whose STABLE flipped, and for each of them, in ascending
key index, the whole Note On or Note Off message is emitted, if INIT is set and its note is in range. -/
def Obligations.ScanEmitsOneEventPerChange : Prop :=
  ∀ (r : Bitmap) (s : State), ∃ t, exec (.scanCycle r) s = .next t ∧ t.changes = t.stable ^^^ s.stable ∧
    (∀ i : Key, key t.changes i = true ↔ reading s r i ≠ key s.stable i ∧ s.count i + 1 = s.cfg.thresh) ∧
    t.tx = s.tx ++ if s.init then
      keys.flatMap (fun i => if key t.changes i then eventOf s (key t.stable i) i else []) else []

/-- R121, R73: a scan emits at most 192 bytes. -/
def Obligations.ScanEmitsAtMost192Bytes : Prop :=
  ∀ (r : Bitmap) (s : State), (scanOnce s r).tx.length ≤ s.tx.length + 192

/-- R70, 2: THRESH consecutive disagreeing scans flip the key at the THRESH-th of them and no sooner, and clear its
counter. -/
def Obligations.ThresholdDisagreementsCommit : Prop :=
  ∀ (s : State) (i : Key) (scans : List Bitmap), s.count i = 0 → scans.length = s.cfg.thresh →
    (∀ r ∈ scans, reading s r i ≠ key s.stable i) →
    (∀ n < s.cfg.thresh, key (scanAll s (scans.take n)).stable i = key s.stable i ∧
      (scanAll s (scans.take n)).count i = n) ∧
    key (scanAll s scans).stable i = !key s.stable i ∧ (scanAll s scans).count i = 0 ∧
    key (scanAll s scans).changes i = true

/-- R70, 1, and R71: fewer than THRESH scans after the counter was 0 cannot flip the key, whatever they read, and an
agreeing reading forgets a disagreement. -/
def Obligations.ShortDisagreementIsForgotten : Prop :=
  ∀ (s : State) (i : Key) (scans : List Bitmap) (r : Bitmap), s.count i = 0 → scans.length < s.cfg.thresh →
    key (scanAll s scans).stable i = key s.stable i ∧
    (reading s r i = key s.stable i →
      key (scanAll s (scans ++ [r])).stable i = key s.stable i ∧ (scanAll s (scans ++ [r])).count i = 0)

/-- R71: with THRESH at least 2, a raw reading that alternates every cycle never commits, whichever reading comes
first; one that disagrees comes first with no transition pending. -/
def Obligations.AlternatingReadingNeverCommits : Prop :=
  ∀ (s : State) (i : Key) (scans : List Bitmap), 2 ≤ s.cfg.thresh →
    (∀ n (h : n + 1 < scans.length), reading s scans[n + 1] i ≠ reading s scans[n] i) →
    (∀ (h : 0 < scans.length), reading s scans[0] i ≠ key s.stable i → s.count i = 0) →
    key (scanAll s scans).stable i = key s.stable i

/-- R28, R123: with RAW32 keys 32..63 stay released, keep a clear counter and give no event. -/
def Obligations.Raw32KeysNeverFlip : Prop :=
  ∀ (s : State) (r : Bitmap) (i : Key), s.Inv → s.cfg.raw32 = true → 32 ≤ i.val →
    key (scanOnce s r).raw i = false ∧ key (scanOnce s r).stable i = false ∧ key (scanOnce s r).prev i = false ∧
    (scanOnce s r).count i = 0 ∧ key (scanOnce s r).changes i = false

/-- R117: keys held when the block leaves reset give their Note On in the THRESH-th scan, in ascending key index, and
nothing before it. -/
def Obligations.HeldKeysReportInTheThresholdScan : Prop :=
  ∀ (s : State) (r : Bitmap), s.stable = 0#64 → (∀ i : Key, s.count i = 0) → s.init = true →
    (∀ n < s.cfg.thresh, (scanAll s (List.replicate n r)).tx = s.tx) ∧
    (∀ i : Key, key (scanAll s (List.replicate s.cfg.thresh r)).stable i = reading s r i) ∧
    (scanAll s (List.replicate s.cfg.thresh r)).tx =
      s.tx ++ keys.flatMap fun i => if reading s r i then eventOf s true i else []

/-- R72: a commit stands whether or not its event is emitted: the registers after a scan depend on the registers, THRESH
and RAW32 alone, not on INIT, TX, the note table, the channel or the velocities. -/
def Obligations.CommitsDoNotDependOnEmission : Prop :=
  ∀ (s s' : State) (r : Bitmap), s.stable = s'.stable → s.cnt = s'.cnt →
    s.cfg.thresh = s'.cfg.thresh → s.cfg.raw32 = s'.cfg.raw32 →
    (scanOnce s r).raw = (scanOnce s' r).raw ∧ (scanOnce s r).stable = (scanOnce s' r).stable ∧
    (scanOnce s r).prev = (scanOnce s' r).prev ∧ (scanOnce s r).cnt = (scanOnce s' r).cnt ∧
    (scanOnce s r).changes = (scanOnce s' r).changes

/-! ### The encoder (spec/41_midi_encoder.md): each command's whole effect -/

/-- R83: NOTE_ON, its encoding and its whole effect. -/
def Obligations.NoteOnEmitsItsMessage : Prop :=
  (∀ w : CommandWord, w.extractLsb' 64 8 = 0x01#8 →
    decode w = .ok (.noteOn (w.extractLsb' 16 8) (w.extractLsb' 8 8) (w.extractLsb' 0 8))) ∧
  ∀ (ch note vel : Byte) (s : State), exec (.noteOn ch note vel) s = .next (answered s
    (if s.init = true ∧ (1 ≤ ch.toNat ∧ ch.toNat ≤ 16) ∧ note.toNat ≤ 127 ∧ (1 ≤ vel.toNat ∧ vel.toNat ≤ 127) then
      [0x90#8 ||| (ch - 1#8), note &&& 0x7F#8, vel &&& 0x7F#8] else []) noResult)

/-- R84: NOTE_OFF, its encoding and its whole effect. -/
def Obligations.NoteOffEmitsItsMessage : Prop :=
  (∀ w : CommandWord, w.extractLsb' 64 8 = 0x02#8 →
    decode w = .ok (.noteOff (w.extractLsb' 16 8) (w.extractLsb' 8 8) (w.extractLsb' 0 8))) ∧
  ∀ (ch note vel : Byte) (s : State), exec (.noteOff ch note vel) s = .next (answered s
    (if s.init = true ∧ (1 ≤ ch.toNat ∧ ch.toNat ≤ 16) ∧ note.toNat ≤ 127 ∧ vel.toNat ≤ 127 then
      [0x80#8 ||| (ch - 1#8), note &&& 0x7F#8, vel &&& 0x7F#8] else []) noResult)

/-- R85: CONTROL_CHANGE, its encoding and its whole effect. -/
def Obligations.ControlChangeEmitsItsMessage : Prop :=
  (∀ w : CommandWord, w.extractLsb' 64 8 = 0x03#8 →
    decode w = .ok (.controlChange (w.extractLsb' 16 8) (w.extractLsb' 8 8) (w.extractLsb' 0 8))) ∧
  ∀ (ch ctl val : Byte) (s : State), exec (.controlChange ch ctl val) s = .next (answered s
    (if s.init = true ∧ (1 ≤ ch.toNat ∧ ch.toNat ≤ 16) ∧ ctl.toNat ≤ 127 ∧ val.toNat ≤ 127 then
      [0xB0#8 ||| (ch - 1#8), ctl &&& 0x7F#8, val &&& 0x7F#8] else []) noResult)

/-- R86: PROGRAM_CHANGE, its encoding and its whole effect. -/
def Obligations.ProgramChangeEmitsItsMessage : Prop :=
  (∀ w : CommandWord, w.extractLsb' 64 8 = 0x04#8 →
    decode w = .ok (.programChange (w.extractLsb' 16 8) (w.extractLsb' 8 8))) ∧
  ∀ (ch prog : Byte) (s : State), exec (.programChange ch prog) s = .next (answered s
    (if s.init = true ∧ (1 ≤ ch.toNat ∧ ch.toNat ≤ 16) ∧ prog.toNat ≤ 127 then
      [0xC0#8 ||| (ch - 1#8), prog &&& 0x7F#8] else []) noResult)

/-- R87: PITCH_BEND, the 14-bit value `u = v + 8192` low 7 bits first. -/
def Obligations.PitchBendEmitsItsMessage : Prop :=
  (∀ w : CommandWord, w.extractLsb' 64 8 = 0x05#8 →
    decode w = .ok (.pitchBend (w.extractLsb' 16 8) (w.extractLsb' 0 16).toInt)) ∧
  ∀ (ch : Byte) (v : Int) (s : State), exec (.pitchBend ch v) s = .next (answered s
    (if s.init = true ∧ (1 ≤ ch.toNat ∧ ch.toNat ≤ 16) ∧ -8192 ≤ v ∧ v ≤ 8191 then
      [0xE0#8 ||| (ch - 1#8), BitVec.ofInt 8 ((v + 8192) % 128), BitVec.ofInt 8 ((v + 8192) / 128)] else []) noResult)

/-- R88: ALL_NOTES_OFF, and that it is CONTROL_CHANGE with controller 123 and value 0. -/
def Obligations.AllNotesOffIsControlChange123 : Prop :=
  (∀ w : CommandWord, w.extractLsb' 64 8 = 0x06#8 →
    decode w = .ok (.allNotesOff (w.extractLsb' 16 8))) ∧
  ∀ (ch : Byte) (s : State),
    exec (.allNotesOff ch) s = .next (answered s
      (if s.init = true ∧ (1 ≤ ch.toNat ∧ ch.toNat ≤ 16) then [0xB0#8 ||| (ch - 1#8), 0x7B#8, 0x00#8] else [])
      noResult) ∧
    exec (.allNotesOff ch) s = exec (.controlChange ch 123#8 0#8) s

/-- R82 and R80: SEND_RAW hands its bytes to the transport unmodified, in order, and nothing while INIT = 0. -/
def Obligations.SendRawEmitsItsBytesUnmodified : Prop :=
  (∀ w : CommandWord, w.extractLsb' 64 8 = 0x07#8 →
    decode w = .ok (.sendRaw ((List.range (w.extractLsb' 56 3).toNat).map fun k => w.extractLsb' (8 * k) 8))) ∧
  ∀ (bytes : List Byte) (s : State),
    exec (.sendRaw bytes) s = .next (answered s (if s.init = true then bytes else []) noResult)

/-- R81: MIDI_INIT sets INIT, emits nothing and touches nothing else. -/
def Obligations.MidiInitSetsTheFlag : Prop :=
  (∀ w : CommandWord, w.extractLsb' 64 8 = 0x08#8 →
    decode w = .ok .midiInit) ∧
  ∀ s : State, exec .midiInit s = .next { s with init := true, responses := s.responses ++ [noResult] }

/-- R75 to R77: what a message command appends is nothing, or a status byte with bit 7 set and `ch - 1` in its low
nibble and then data bytes with bit 7 clear, of the message's length. -/
def Obligations.MessagesHaveStatusAndDataBytes : Prop :=
  ∀ (i : Instr) (ch : Byte) (s t : State), channelOf i = some ch → exec i s = .next t →
    t.tx = s.tx ∨ ∃ status data, t.tx = s.tx ++ status :: data ∧ 1 + data.length = messageLength i ∧
      status.getLsbD 7 = true ∧ (status &&& 0x0F#8).toNat + 1 = ch.toNat ∧ ∀ b ∈ data, b.getLsbD 7 = false

/-- R38: the two data bytes of a pitch bend give back the 14-bit value, low byte first. -/
def Obligations.PitchBendBytesGiveTheValueBack : Prop :=
  ∀ (ch : Byte) (v : Int) (s : State), s.init = true → ChannelInRange ch → -8192 ≤ v → v ≤ 8191 →
    ∃ t status low high, exec (.pitchBend ch v) s = .next t ∧ t.tx = s.tx ++ [status, low, high] ∧
      (low.toNat : Int) + 128 * high.toNat = v + 8192

/-! ### The conversions (spec/42_note_conversion.md) -/

/-- R89: the response of NOTE_NAME is the number of the name, by the table of the seventeen names and the octave
digit, if it is at most 127, and 255 for everything else; nothing else changes. -/
def Obligations.NoteNameGivesTheNumber : Prop :=
  (∀ w : CommandWord, w.extractLsb' 64 8 = 0x20#8 →
    decode w = .ok (.noteName ((List.range (w.extractLsb' 56 3).toNat).map fun k => w.extractLsb' (8 * k) 8))) ∧
  ∀ (chars : List Byte) (s : State), ∃ n : Nat, exec (.noteName chars) s = .next (answered s [] (numbered n)) ∧
    ((∃ name semitone digit, (name, semitone) ∈ namesOfSemitones ∧ chars = name ++ [digit] ∧
        0x30 ≤ digit.toNat ∧ digit.toNat ≤ 0x39 ∧ (digit.toNat - 0x30 + 1) * 12 + semitone ≤ 127 ∧
        n = (digit.toNat - 0x30 + 1) * 12 + semitone) ∨
      (n = 255 ∧ ¬∃ name semitone digit, (name, semitone) ∈ namesOfSemitones ∧ chars = name ++ [digit] ∧
        0x30 ≤ digit.toNat ∧ digit.toNat ≤ 0x39 ∧ (digit.toNat - 0x30 + 1) * 12 + semitone ≤ 127))

/-- R92: each of the five flats has the number of its sharp, in every octave, and a flat on C or F is invalid whatever
the octave. -/
def Obligations.FlatsHaveTheNumberOfTheirSharps : Prop :=
  ∀ (digit : Byte) (s : State),
    exec (.noteName [0x44, 0x62, digit]) s = exec (.noteName [0x43, 0x23, digit]) s ∧
    exec (.noteName [0x45, 0x62, digit]) s = exec (.noteName [0x44, 0x23, digit]) s ∧
    exec (.noteName [0x47, 0x62, digit]) s = exec (.noteName [0x46, 0x23, digit]) s ∧
    exec (.noteName [0x41, 0x62, digit]) s = exec (.noteName [0x47, 0x23, digit]) s ∧
    exec (.noteName [0x42, 0x62, digit]) s = exec (.noteName [0x41, 0x23, digit]) s ∧
    exec (.noteName [0x43, 0x62, digit]) s = .next (answered s [] (numbered 255)) ∧
    exec (.noteName [0x46, 0x62, digit]) s = .next (answered s [] (numbered 255))

/-- R94: the notes that have a name are exactly 12..127. -/
def Obligations.NamedNotesAreTwelveAndUp : Prop :=
  ∀ (n : Nat) (s : State), n ≤ 127 →
    ((12 ≤ n) ↔ ∃ chars : List Byte, exec (.noteName chars) s = .next (answered s [] (numbered n)))

/-- R97 and R99: NOTE_FREQ responds FREQ_FN(N) for N in 0..127 and no result above, whatever `rsp_result` then holds
(log 20); nothing else changes. -/
def Obligations.NoteFreqRespondsTheFrequency : Prop :=
  (∀ w : CommandWord, w.extractLsb' 64 8 = 0x21#8 →
    decode w = .ok (.noteFreq (w.extractLsb' 0 8))) ∧
  ∀ (note : Byte) (s : State), ∃ r : Response, exec (.noteFreq note) s = .next (answered s [] r) ∧
    (∀ h : note.toNat ≤ 127, r = ⟨true, s.cfg.setup.freqFn[note.toNat]'(Nat.lt_succ_of_le h)⟩) ∧
    (127 < note.toNat → r.hasResult = false)

/-- R98: in every configuration the response at note 69 is 440.0 exactly; the binary64 value responded for any note
0..127 is within FREQ_TOL of `440 * 2^((n-69)/12)`, relatively; and it depends on the note alone. -/
def Obligations.FrequenciesObeyTheirLaws : Prop :=
  ∀ (note : Byte) (s : State), note.toNat ≤ 127 → ∃ (pattern : Word64) (v : Rat),
    (∀ s' : State, s'.cfg = s.cfg → exec (.noteFreq note) s' = .next (answered s' [] ⟨true, pattern⟩)) ∧
    (note.toNat = 69 → pattern = 0x407B800000000000#64) ∧
    binary64Value pattern = some v ∧ 0 < s.cfg.setup.freqTol ∧
    |(v : ℝ) - 440 * (2 : ℝ) ^ (((note.toNat : ℝ) - 69) / 12)|
      ≤ (s.cfg.setup.freqTol : ℝ) * (440 * (2 : ℝ) ^ (((note.toNat : ℝ) - 69) / 12))

/-! ### The outcomes of a step -/

/-- R105: from every state with the invariants a step has one of two outcomes, a next state, which has the invariants
again, or none, exactly while the block waits on the transport: a command is in flight and nothing but presented commands
is to come (R112). No step faults. That the second outcome is the refusal `transportStall` is log 6. -/
def Obligations.InvariantStatesStepOrWaitOnTheTransport : Prop :=
  ∀ s : State, s.Inv →
    ((∃ t, step s = .next t ∧ t.Inv) ∨ step s = .refused .transportStall) ∧
    (step s = .refused .transportStall ↔ s.inFlight ≠ none ∧ ∀ e ∈ s.inputs, isCommand e = true)
end

