-- ==== Sys2Proof/Laws/PerInstr.lean ====
section
/-! SUPPORT. Statements made per instruction: the family OpcodeField says that the encoder puts the command's OP of
spec/30_encoding.md R52 where the decoder reads it (R47). -/

namespace Sys2Proof.Laws

/-- OP over any operand field is read back as OP (R47). -/
theorem opField_append (op : Byte) (d : Word64) : opField (op ++ d) = op := by
  apply BitVec.eq_of_getLsbD_eq
  intro i hi
  have h := BitVec.getLsbD_append (x := op) (y := d) (i := 64 + i)
  simp only [opField, BitVec.getLsbD_extractLsb', hi, decide_true, Bool.true_and]
  rw [h]
  simp

namespace OpcodeField

/-- The word of an instruction carries its OP in `W[71:64]`. -/
def Statement (i : Instr) : Prop := opField (encode i) = i.opcode

theorem noteOn (ch note vel : Byte) : Statement (.noteOn ch note vel) := opField_append _ _
theorem noteOff (ch note vel : Byte) : Statement (.noteOff ch note vel) := opField_append _ _
theorem controlChange (ch ctl val : Byte) : Statement (.controlChange ch ctl val) := opField_append _ _
theorem programChange (ch prog : Byte) : Statement (.programChange ch prog) := opField_append _ _
theorem pitchBend (ch : Byte) (value : Int) : Statement (.pitchBend ch value) := opField_append _ _
theorem allNotesOff (ch : Byte) : Statement (.allNotesOff ch) := opField_append _ _
theorem sendRaw (bytes : List Byte) : Statement (.sendRaw bytes) := opField_append _ _
theorem midiInit : Statement .midiInit := opField_append _ _
theorem scanCycle (raw : Bitmap) : Statement (.scanCycle raw) := opField_append _ _
theorem noteName (chars : List Byte) : Statement (.noteName chars) := opField_append _ _
theorem noteFreq (note : Byte) : Statement (.noteFreq note) := opField_append _ _

end OpcodeField

end Sys2Proof.Laws
end

