-- ==== Sys2Proof/Laws/Decode.lean ====
section
/-! SUPPORT. Reading a field of an encoded word back: one lemma for each format of spec/30_encoding.md R50. -/

namespace Sys2Proof.Laws

/-- A field below bit 64 of `OP` over `DATA` is that field of `DATA` (R47). -/
theorem extract_append (op : Byte) (d : Word64) (k n : Nat) (h : k + n ≤ 64) :
    BitVec.extractLsb' k n (op ++ d : CommandWord) = d.extractLsb' k n := by
  apply BitVec.eq_of_getLsbD_eq
  intro i hi
  have e := BitVec.getLsbD_append (x := op) (y := d) (i := k + i)
  simp only [BitVec.getLsbD_extractLsb', hi, decide_true, Bool.true_and]
  rw [e, if_pos (by omega)]

/-- The bits of `DATA` in the formats with `A`, `B` and `C`. -/
theorem getLsbD_dataABC (a b c : Byte) (j : Nat) (hj : j < 24) : (dataABC a b c).getLsbD j
    = if j < 8 then c.getLsbD j else if j < 16 then b.getLsbD (j - 8) else a.getLsbD (j - 16) := by
  have h64 : j < 64 := by omega
  unfold dataABC
  rw [BitVec.getLsbD_setWidth]
  simp only [h64, decide_true, Bool.true_and]
  rw [BitVec.getLsbD_append]
  by_cases h8 : j < 8
  · simp [h8]
  · rw [if_neg h8, if_neg h8, BitVec.getLsbD_append]
    by_cases h16 : j < 16
    · rw [if_pos (by omega), if_pos h16]
    · rw [if_neg (by omega), if_neg h16, Nat.sub_sub]

theorem fieldA_dataABC (op a b c : Byte) : fieldA (op ++ dataABC a b c) = a := by
  unfold fieldA
  rw [extract_append _ _ _ _ (by omega)]
  apply BitVec.eq_of_getLsbD_eq
  intro i hi
  rw [BitVec.getLsbD_extractLsb', getLsbD_dataABC _ _ _ _ (by omega), if_neg (by omega), if_neg (by omega)]
  simp [hi]

theorem fieldB_dataABC (op a b c : Byte) : fieldB (op ++ dataABC a b c) = b := by
  unfold fieldB
  rw [extract_append _ _ _ _ (by omega)]
  apply BitVec.eq_of_getLsbD_eq
  intro i hi
  rw [BitVec.getLsbD_extractLsb', getLsbD_dataABC _ _ _ _ (by omega), if_neg (by omega), if_pos (by omega)]
  simp [hi]

theorem fieldC_dataABC (op a b c : Byte) : fieldC (op ++ dataABC a b c) = c := by
  unfold fieldC
  rw [extract_append _ _ _ _ (by omega)]
  apply BitVec.eq_of_getLsbD_eq
  intro i hi
  rw [BitVec.getLsbD_extractLsb', getLsbD_dataABC _ _ _ _ (by omega), if_pos (by omega)]
  simp [hi]

/-- The bits of `DATA` in format F_PB. -/
theorem getLsbD_dataPB (a : Byte) (v : Int) (j : Nat) (hj : j < 24) : (dataPB a v).getLsbD j
    = if j < 16 then (BitVec.ofInt 16 v).getLsbD j else a.getLsbD (j - 16) := by
  have h64 : j < 64 := by omega
  unfold dataPB
  rw [BitVec.getLsbD_setWidth]
  simp only [h64, decide_true, Bool.true_and]
  rw [BitVec.getLsbD_append]

theorem fieldA_dataPB (op a : Byte) (v : Int) : fieldA (op ++ dataPB a v) = a := by
  unfold fieldA
  rw [extract_append _ _ _ _ (by omega)]
  apply BitVec.eq_of_getLsbD_eq
  intro i hi
  rw [BitVec.getLsbD_extractLsb', getLsbD_dataPB _ _ _ (by omega), if_neg (by omega)]
  simp [hi]

/-- A pitch-bend value that fits its field is read back (R51). -/
theorem fieldV_dataPB (op a : Byte) (v : Int) (hv : pitchFits v = true) : fieldV (op ++ dataPB a v) = v := by
  simp only [pitchFits, Bool.and_eq_true, decide_eq_true_eq] at hv
  unfold fieldV
  rw [extract_append _ _ _ _ (by omega)]
  have e : (dataPB a v).extractLsb' 0 16 = BitVec.ofInt 16 v := by
    apply BitVec.eq_of_getLsbD_eq
    intro i hi
    rw [BitVec.getLsbD_extractLsb', getLsbD_dataPB _ _ _ (by omega), if_pos (by omega)]
    simp [hi]
  rw [e, BitVec.toInt_ofInt, Int.bmod_eq_of_le] <;> omega

theorem fieldR_append (op : Byte) (d : Word64) : fieldR (op ++ d) = d := by
  unfold fieldR
  rw [extract_append _ _ _ _ (by omega)]
  apply BitVec.eq_of_getLsbD_eq
  intro i hi
  rw [BitVec.getLsbD_extractLsb']
  simp [hi]

/-- The bits of packed list bytes: bit j is bit `j mod 8` of byte `j / 8` (R51). -/
theorem getLsbD_packBytes (bytes : List Byte) (j : Nat) (hj : j < 64) :
    (packBytes bytes).getLsbD j = (bytes.getD (j / 8) 0#8).getLsbD (j % 8) := by
  induction bytes generalizing j with
  | nil => simp [packBytes]
  | cons b bs ih =>
    unfold packBytes
    rw [BitVec.getLsbD_or, BitVec.getLsbD_setWidth, BitVec.getLsbD_shiftLeft]
    by_cases h : j < 8
    · have e1 : j / 8 = 0 := by omega
      have e2 : j % 8 = j := by omega
      simp [hj, h, e1, e2]
    · have e1 : j / 8 = (j - 8) / 8 + 1 := by omega
      have e2 : j % 8 = (j - 8) % 8 := by omega
      have hb : b.getLsbD j = false := BitVec.getLsbD_of_ge b j (by omega)
      rw [e1, e2, List.getD_cons_succ, ← ih (j - 8) (by omega)]
      simp [hj, h, hb]

/-- A list of at most seven bytes is read back (R51). -/
theorem fieldList_dataList (op : Byte) (bytes : List Byte) (h7 : listFits bytes = true) :
    fieldList (op ++ dataList bytes) = bytes := by
  simp only [listFits, decide_eq_true_eq] at h7
  have bits : ∀ j < 64, (dataList bytes).getLsbD j
      = if j < 56 then (bytes.getD (j / 8) 0#8).getLsbD (j % 8)
        else (BitVec.ofNat 3 bytes.length).getLsbD (j - 56) := by
    intro j hj
    unfold dataList
    rw [BitVec.getLsbD_or, BitVec.getLsbD_shiftLeft, BitVec.getLsbD_setWidth, getLsbD_packBytes _ _ hj]
    by_cases h : j < 56
    · simp [h]
    · have e : bytes.getD (j / 8) 0#8 = 0#8 := by
        rw [List.getD_eq_getElem?_getD, List.getElem?_eq_none (by omega)]
        rfl
      have hj' : j - 56 < 64 := by omega
      rw [e, if_neg h]
      simp [h, hj, hj']
  have len : fieldLen (op ++ dataList bytes) = bytes.length := by
    unfold fieldLen
    rw [extract_append _ _ _ _ (by omega)]
    have e : (dataList bytes).extractLsb' 56 3 = BitVec.ofNat 3 bytes.length := by
      apply BitVec.eq_of_getLsbD_eq
      intro i hi
      rw [BitVec.getLsbD_extractLsb', bits _ (by omega), if_neg (by omega)]
      simp [hi]
    rw [e, BitVec.toNat_ofNat]
    exact Nat.mod_eq_of_lt (by omega)
  unfold fieldList
  rw [len]
  apply List.ext_getElem
  · simp
  · intro k _ hk
    rw [List.getElem_map, List.getElem_range, fieldByte, extract_append _ _ _ _ (by omega)]
    apply BitVec.eq_of_getLsbD_eq
    intro i hi
    have e1 : (8 * k + i) / 8 = k := by omega
    have e2 : (8 * k + i) % 8 = i := by omega
    rw [BitVec.getLsbD_extractLsb', bits _ (by omega), if_pos (by omega), e1, e2,
      List.getD_eq_getElem?_getD, List.getElem?_eq_getElem hk]
    simp [hi]

end Sys2Proof.Laws
end

