-- ==== Sys2Proof/Laws/State.lean ====
section
/-! SUPPORT. One lemma per field and named update of the state, so that no later proof unfolds a record update. -/

namespace Sys2Proof.Machine

variable (s : State) (r : Response) (b : Byte)

@[simp] theorem respond_raw : (s.respond r).raw = s.raw := rfl
@[simp] theorem respond_stable : (s.respond r).stable = s.stable := rfl
@[simp] theorem respond_prev : (s.respond r).prev = s.prev := rfl
@[simp] theorem respond_cnt : (s.respond r).cnt = s.cnt := rfl
@[simp] theorem respond_init : (s.respond r).init = s.init := rfl
@[simp] theorem respond_tx : (s.respond r).tx = s.tx := rfl
@[simp] theorem respond_txBefore : (s.respond r).txBefore = s.txBefore := rfl
@[simp] theorem respond_responses : (s.respond r).responses = s.responses ++ [r] := rfl
@[simp] theorem respond_inFlight : (s.respond r).inFlight = s.inFlight := rfl
@[simp] theorem respond_inputs : (s.respond r).inputs = s.inputs := rfl
@[simp] theorem respond_txCredit : (s.respond r).txCredit = s.txCredit := rfl
@[simp] theorem respond_cfg : (s.respond r).cfg = s.cfg := rfl

@[simp] theorem emit_raw : (s.emit b).raw = s.raw := rfl
@[simp] theorem emit_stable : (s.emit b).stable = s.stable := rfl
@[simp] theorem emit_prev : (s.emit b).prev = s.prev := rfl
@[simp] theorem emit_cnt : (s.emit b).cnt = s.cnt := rfl
@[simp] theorem emit_init : (s.emit b).init = s.init := rfl
@[simp] theorem emit_tx : (s.emit b).tx = s.tx ++ [b] := rfl
@[simp] theorem emit_txBefore : (s.emit b).txBefore = s.txBefore := rfl
@[simp] theorem emit_responses : (s.emit b).responses = s.responses := rfl
@[simp] theorem emit_inFlight : (s.emit b).inFlight = s.inFlight := rfl
@[simp] theorem emit_inputs : (s.emit b).inputs = s.inputs := rfl
@[simp] theorem emit_txCredit : (s.emit b).txCredit = s.txCredit := rfl
@[simp] theorem emit_cfg : (s.emit b).cfg = s.cfg := rfl

@[simp] theorem setInit_raw : s.setInit.raw = s.raw := rfl
@[simp] theorem setInit_stable : s.setInit.stable = s.stable := rfl
@[simp] theorem setInit_prev : s.setInit.prev = s.prev := rfl
@[simp] theorem setInit_cnt : s.setInit.cnt = s.cnt := rfl
@[simp] theorem setInit_init : s.setInit.init = true := rfl
@[simp] theorem setInit_tx : s.setInit.tx = s.tx := rfl
@[simp] theorem setInit_txBefore : s.setInit.txBefore = s.txBefore := rfl
@[simp] theorem setInit_responses : s.setInit.responses = s.responses := rfl
@[simp] theorem setInit_inFlight : s.setInit.inFlight = s.inFlight := rfl
@[simp] theorem setInit_inputs : s.setInit.inputs = s.inputs := rfl
@[simp] theorem setInit_txCredit : s.setInit.txCredit = s.txCredit := rfl
@[simp] theorem setInit_cfg : s.setInit.cfg = s.cfg := rfl

@[simp] theorem assertReset_raw : s.assertReset.raw = 0#64 := rfl
@[simp] theorem assertReset_stable : s.assertReset.stable = 0#64 := rfl
@[simp] theorem assertReset_prev : s.assertReset.prev = 0#64 := rfl
@[simp] theorem assertReset_cnt : s.assertReset.cnt = Vector.replicate 64 0 := rfl
@[simp] theorem assertReset_init : s.assertReset.init = false := rfl
@[simp] theorem assertReset_tx : s.assertReset.tx = [] := rfl
@[simp] theorem assertReset_txBefore : s.assertReset.txBefore = s.txBefore ++ s.tx := rfl
@[simp] theorem assertReset_responses : s.assertReset.responses = s.responses := rfl
@[simp] theorem assertReset_inFlight : s.assertReset.inFlight = none := rfl
@[simp] theorem assertReset_inputs : s.assertReset.inputs = s.inputs := rfl
@[simp] theorem assertReset_txCredit : s.assertReset.txCredit = s.txCredit := rfl
@[simp] theorem assertReset_cfg : s.assertReset.cfg = s.cfg := rfl

variable (i : Key)

@[simp] theorem respond_count : (s.respond r).count i = s.count i := rfl
@[simp] theorem emit_count : (s.emit b).count i = s.count i := rfl
@[simp] theorem setInit_count : s.setInit.count i = s.count i := rfl
@[simp] theorem assertReset_count : s.assertReset.count i = 0 := by
  simp [State.assertReset, State.reset, State.count]

end Sys2Proof.Machine
end

