-- ==== Sys2Proof/Laws/Ops.lean ====
section
/-! SUPPORT. One spec lemma for each shared operation: bitmaps by key, SendBytes, the handshakes, and the start-state
check. Proofs cite these and do not unfold the operations. -/

namespace Sys2Proof.Machine

/-! ### Bitmaps by key -/

@[simp] theorem key_bitmapOf (f : Key → Bool) (i : Key) : key (bitmapOf f) i = f i := by
  simp [key, bitmapOf]

@[simp] theorem key_xor (v w : Bitmap) (i : Key) : key (v ^^^ w) i = (key v i ^^ key w i) := by
  simp [key]

@[simp] theorem key_zero (i : Key) : key 0#64 i = false := by
  simp [key]

/-- Two counter files with the same counter for every key are equal. -/
theorem cnt_ext {s t : State} (h : ∀ i : Key, s.count i = t.count i) : s.cnt = t.cnt := by
  ext i hi
  exact h ⟨i, hi⟩

/-- Two bitmaps with the same bit for every key are equal. -/
theorem bitmap_ext {v w : Bitmap} (h : ∀ i : Key, key v i = key w i) : v = w := by
  apply BitVec.eq_of_getElem_eq
  intro i hi
  exact h ⟨i, hi⟩

@[simp] theorem mem_keys (i : Key) : i ∈ keys := List.mem_finRange i

/-! ### The byte emitter (R80) -/

theorem foldl_emit (bytes : List Byte) (s : State) :
    bytes.foldl State.emit s = { s with tx := s.tx ++ bytes } := by
  induction bytes generalizing s with
  | nil => simp
  | cons b bs ih => simp [ih, State.emit]

/-- What SendBytes can do: append the bytes if INIT is set, and nothing else. -/
theorem sendBytes_eq (s : State) (bytes : List Byte) :
    s.sendBytes bytes = { s with tx := s.tx ++ if s.init then bytes else [] } := by
  unfold State.sendBytes
  rcases s with ⟨raw, stable, prev, cnt, init, tx, txBefore, responses, inFlight, inputs, txCredit, cfg⟩
  cases init with
  | false => simp
  | true =>
    cases bytes with
    | nil => simp
    | cons b bs => simp [foldl_emit, State.emit]

/-- What a message can do: append its bytes if its range checks passed and INIT is set, and nothing else. -/
theorem sendMessage_eq (s : State) (message : Option (List Byte)) :
    s.sendMessage message = { s with tx := s.tx ++ if s.init then message.getD [] else [] } := by
  cases message with
  | none => simp [State.sendMessage]
  | some bytes => simp [State.sendMessage, sendBytes_eq]

/-! ### The command handshake (R48) -/

/-- While the block is ready it takes the oldest input. -/
theorem takeInput_ready (inputs : List Input) :
    takeInput true inputs = inputs.head?.map fun e => (e, inputs.tail) := by
  cases inputs with
  | nil => rfl
  | cons e rest => cases e <;> rfl

/-- While a command is in flight no presented command is taken. -/
theorem takeInput_busy_no_command {inputs rest : List Input} {w : CommandWord} :
    takeInput false inputs ≠ some (.command w, rest) := by
  induction inputs generalizing rest with
  | nil => simp [takeInput]
  | cons e es ih =>
    cases e with
    | command v =>
      intro h
      simp only [takeInput, Bool.false_eq_true, if_false, Option.map_eq_some_iff] at h
      obtain ⟨⟨a, b⟩, hab, h⟩ := h
      cases h
      exact ih hab
    | rst => simp [takeInput]
    | transport credit => simp [takeInput]

/-- The inputs left are the inputs less the one taken, in order. -/
theorem takeInput_split {ready : Bool} {inputs rest : List Input} {e : Input}
    (h : takeInput ready inputs = some (e, rest)) :
    ∃ before after, inputs = before ++ e :: after ∧ rest = before ++ after
      ∧ ∀ x ∈ before, ∃ w, x = .command w := by
  induction inputs generalizing rest e with
  | nil => simp [takeInput] at h
  | cons x xs ih =>
    cases x with
    | command w =>
      cases ready with
      | true =>
        simp only [takeInput, if_true, Option.some.injEq, Prod.mk.injEq] at h
        exact ⟨[], xs, by simp [h.1], by simp [h.2], by simp⟩
      | false =>
        simp only [takeInput, Bool.false_eq_true, if_false, Option.map_eq_some_iff] at h
        obtain ⟨⟨a, b⟩, hab, hr⟩ := h
        cases hr
        obtain ⟨before, after, h1, h2, h3⟩ := ih hab
        refine ⟨.command w :: before, after, by simp [h1], by simp [h2], ?_⟩
        intro y hy
        cases hy with
        | head => exact ⟨w, rfl⟩
        | tail _ hy => exact h3 y hy
    | rst =>
      simp only [takeInput, Option.some.injEq, Prod.mk.injEq] at h
      exact ⟨[], xs, by simp [h.1], by simp [h.2], by simp⟩
    | transport credit =>
      simp only [takeInput, Option.some.injEq, Prod.mk.injEq] at h
      exact ⟨[], xs, by simp [h.1], by simp [h.2], by simp⟩

/-- There is no input to take exactly when there is none at all, or the block is busy and all are presented commands. -/
theorem takeInput_eq_none {ready : Bool} {inputs : List Input} : takeInput ready inputs = none ↔
    inputs = [] ∨ (ready = false ∧ ∀ e ∈ inputs, ∃ w, e = .command w) := by
  induction inputs with
  | nil => simp [takeInput]
  | cons e es ih =>
    cases e with
    | command w =>
      cases ready with
      | true => simp [takeInput]
      | false => cases es <;> simp_all [takeInput]
    | rst => simp [takeInput]
    | transport credit => simp [takeInput]

/-! ### The transport handshake (R40, R112) -/

@[simp] theorem await_ready {s : State} (h : s.cmdReady = true) : s.await = .next s := by
  simp [State.await, h]

@[simp] theorem await_busy {s : State} (h : s.cmdReady = false) : s.await = .refused .transportStall := by
  simp [State.await, h]

/-- What offering bytes to the transport can do: either all are accepted and the command completes, or those the
transport takes are, and the rest stay in flight. Nothing else changes but TX, the responses and the credit. -/
theorem transmit_cases (s : State) (bytes : List Byte) (r : Response) :
    (∃ credit, s.transmit bytes r = { s with
        tx := s.tx ++ bytes, inFlight := none, responses := s.responses ++ [r], txCredit := credit }) ∨
    (∃ n, s.txCredit = .bytes n ∧ n < bytes.length ∧ s.transmit bytes r = { s with
        tx := s.tx ++ bytes.take n, inFlight := some ⟨bytes.drop n, r⟩, txCredit := .bytes 0 }) := by
  unfold State.transmit
  cases h : s.txCredit with
  | unlimited => exact .inl ⟨s.txCredit, by simp [h]⟩
  | bytes n =>
    by_cases hn : bytes.length ≤ n
    · exact .inl ⟨.bytes (n - bytes.length), by simp [hn]⟩
    · exact .inr ⟨n, rfl, by omega, by simp [hn]⟩

/-- With a transport that accepts every byte, delivering a command's effect is that effect. -/
theorem deliver_unlimited {s t : State} {bytes : List Byte} {r : Response} (hc : t.txCredit = .unlimited)
    (htx : t.tx = s.tx ++ bytes) (hr : t.responses = s.responses ++ [r]) (hf : t.inFlight = none) :
    s.deliver t = t := by
  cases t
  simp only at hc htx hr hf
  subst hc htx hr hf
  simp [State.deliver, State.transmit]

/-! ### The start-state check (R27, R28) -/

theorem keyOk_iff (s : State) (i : Key) : s.keyOk i = true ↔
    s.count i < s.cfg.thresh ∧ (s.count i = 0 ↔ key s.raw i = key s.stable i)
      ∧ (key s.stable i ≠ key s.prev i → s.count i = 0) := by
  simp only [State.keyOk, Bool.and_eq_true, decide_eq_true_eq, Bool.or_eq_true, beq_iff_eq, and_assoc]
  refine and_congr Iff.rfl (and_congr ?_ ?_)
  · rw [Bool.eq_iff_iff]
    simp
  · tauto

theorem ceilingOk_iff (s : State) (i : Key) : s.ceilingOk i = true ↔
    (s.cfg.raw32 = true → 32 ≤ i.val →
      key s.raw i = false ∧ key s.stable i = false ∧ key s.prev i = false ∧ s.count i = 0) := by
  simp only [State.ceilingOk, Bool.or_eq_true, Bool.and_eq_true, Bool.not_eq_true', decide_eq_true_eq]
  cases s.cfg.raw32
  · simp
  · by_cases h : i.val < 32
    · simp [h]
    · simp [h, Nat.le_of_not_lt h, and_assoc]

theorem inFlightOk_iff (s : State) : s.inFlightOk = true ↔ ∀ f, s.inFlight = some f → f.rest ≠ [] := by
  unfold State.inFlightOk
  cases s.inFlight with
  | none => simp
  | some f => simp

/-- The start states the model accepts are those with the invariants of `State.Inv`. -/
theorem startOk_iff (s : State) : s.startOk = true ↔ s.Inv := by
  simp only [State.startOk, Bool.and_eq_true, List.all_eq_true, mem_keys, true_implies, inFlightOk_iff, keyOk_iff,
    ceilingOk_iff]
  constructor
  · rintro ⟨hf, h⟩
    exact ⟨fun i => (h i).1.1, fun i => (h i).1.2.1, fun i => (h i).1.2.2, fun hr i => (h i).2 hr, hf⟩
  · rintro ⟨h1, h2, h3, h4, h5⟩
    exact ⟨h5, fun i => ⟨⟨h1 i, h2 i, h3 i⟩, fun hr => h4 hr i⟩⟩

end Sys2Proof.Machine
end

