-- ==== Sys2Proof/Laws/Scan.lean ====
section
/-! SUPPORT. Spec lemmas of SCAN_CYCLE: what the lanes write and what the key events append. -/

namespace Sys2Proof.Machine

/-! ### The debounce lane (R63, R64, R66) -/

@[simp] theorem lane_agree (thresh : Nat) (p : Bool) (k : Nat) : debounceLane thresh p p k = (p, 0) := by
  simp [debounceLane]

theorem lane_pending {thresh : Nat} {p q : Bool} {k : Nat} (hne : p ≠ q) (hk : k + 1 ≠ thresh) :
    debounceLane thresh p q k = (q, k + 1) := by
  simp [debounceLane, hne, hk]

theorem lane_commit {thresh : Nat} {p q : Bool} {k : Nat} (hne : p ≠ q) (hk : k + 1 = thresh) :
    debounceLane thresh p q k = (p, 0) := by
  simp [debounceLane, hne, hk]

/-- The invariant of one key (R27) is kept by its lane. -/
theorem lane_inv {thresh : Nat} {p q : Bool} {k : Nat} (hk : k < thresh) :
    (debounceLane thresh p q k).2 < thresh
      ∧ ((debounceLane thresh p q k).2 = 0 ↔ p = (debounceLane thresh p q k).1)
      ∧ ((debounceLane thresh p q k).1 ≠ q → (debounceLane thresh p q k).2 = 0) := by
  by_cases hpq : p = q
  · subst hpq
    simp
    omega
  · by_cases hc : k + 1 = thresh
    · rw [lane_commit hpq hc]
      simp
      omega
    · rw [lane_pending hpq hc]
      simp [hpq]
      omega

/-! ### The registers after a scan (R61 to R65) -/

variable (s : State) (r : Bitmap) (i : Key)

@[simp] theorem scanRegisters_raw : (s.scanRegisters r).raw = r := rfl
@[simp] theorem scanRegisters_prev : (s.scanRegisters r).prev = s.stable := rfl
@[simp] theorem scanRegisters_init : (s.scanRegisters r).init = s.init := rfl
@[simp] theorem scanRegisters_tx : (s.scanRegisters r).tx = s.tx := rfl
@[simp] theorem scanRegisters_cfg : (s.scanRegisters r).cfg = s.cfg := rfl

@[simp] theorem key_scanRegisters_stable : key (s.scanRegisters r).stable i = (s.lane r i).1 := by
  simp only [State.scanRegisters, State.debounceAll, key_bitmapOf]
  rfl

@[simp] theorem scanRegisters_count : (s.scanRegisters r).count i = (s.lane r i).2 := by
  simp only [State.count, State.scanRegisters, State.debounceAll, Vector.getElem_ofFn]
  rfl

/-! ### The key events (R67 to R69) -/

/-- The bytes of key i's event when its bit of the change set is 1; none otherwise (R69, R72). -/
def State.eventBytes (s : State) (i : Key) : List Byte :=
  if key s.changes i then (s.keyMessage i).getD [] else []

/-- A key event appends its message if INIT is set, and does nothing else. -/
theorem keyEvent_eq (changed : Bitmap) (s : State) (i : Key) : s.keyEvent changed i
    = { s with tx := s.tx ++ if s.init then (if key changed i then (s.keyMessage i).getD [] else []) else [] } := by
  unfold State.keyEvent
  cases hc : key changed i <;> simp [sendMessage_eq]

theorem foldl_keyEvent (changed : Bitmap) (order : List Key) (s : State) :
    order.foldl (State.keyEvent changed) s = { s with
      tx := s.tx ++ if s.init then
        order.flatMap fun i => if key changed i then (s.keyMessage i).getD [] else [] else [] } := by
  induction order generalizing s with
  | nil => simp
  | cons i is ih =>
    rw [List.foldl_cons, ih, keyEvent_eq]
    cases h : s.init <;> simp [State.keyMessage]

/-- What the key events can do: append one message for each changed key, in ascending key index, if INIT is set. -/
theorem keyEvents_eq (s : State) :
    s.keyEvents = { s with tx := s.tx ++ if s.init then keys.flatMap s.eventBytes else [] } := by
  rw [State.keyEvents, foldl_keyEvent]
  rfl

end Sys2Proof.Machine
end

