-- ==== Sys2Proof/Laws/Step.lean ====
section
/-! SUPPORT. What one command and one step can do, said once. -/

namespace Sys2Proof.Machine

/-- What any command can do: it answers a next state that differs in the registers, in bytes appended to TX, and in one
response appended; the interface, the outside world and the parameters are as before. -/
theorem exec_effect (i : Instr) (s : State) : ∃ t bytes r, exec i s = .next t
    ∧ t = { s with raw := t.raw, stable := t.stable, prev := t.prev, cnt := t.cnt, init := t.init,
                   tx := s.tx ++ bytes, responses := s.responses ++ [r] } := by
  cases i with
  | noteOn ch note vel => exact ⟨_, _, _, rfl, by rw [sendMessage_eq]; rfl⟩
  | noteOff ch note vel => exact ⟨_, _, _, rfl, by rw [sendMessage_eq]; rfl⟩
  | controlChange ch ctl val => exact ⟨_, _, _, rfl, by rw [sendMessage_eq]; rfl⟩
  | programChange ch prog => exact ⟨_, _, _, rfl, by rw [sendMessage_eq]; rfl⟩
  | pitchBend ch value => exact ⟨_, _, _, rfl, by rw [sendMessage_eq]; rfl⟩
  | allNotesOff ch => exact ⟨_, _, _, rfl, by rw [sendMessage_eq]; rfl⟩
  | sendRaw bytes => exact ⟨_, _, _, rfl, by rw [sendBytes_eq]; rfl⟩
  | midiInit => exact ⟨_, [], _, rfl, by rw [List.append_nil]; rfl⟩
  | scanCycle raw => exact ⟨_, _, _, rfl, by rw [keyEvents_eq]; rfl⟩
  | noteName chars => exact ⟨_, [], _, rfl, by rw [List.append_nil]; rfl⟩
  | noteFreq note => exact ⟨_, [], _, rfl, by rw [List.append_nil]; rfl⟩

/-- Running a command word, legal or illegal, has an effect of the same shape. -/
theorem runCommand_effect (w : CommandWord) (s : State) : ∃ t bytes r, runCommand w s = .next t
    ∧ t = { s with raw := t.raw, stable := t.stable, prev := t.prev, cnt := t.cnt, init := t.init,
                   tx := s.tx ++ bytes, responses := s.responses ++ [r] } := by
  unfold runCommand
  cases decode w with
  | ok i => exact exec_effect i s
  | error e => exact ⟨_, [], _, rfl, by rw [List.append_nil]; rfl⟩

/-- What one step can do from a state with the invariants: wait, run a command word and pass it through the transport,
reset, or take a change of the transport's readiness. -/
theorem step_cases {s : State} (h : s.Inv) :
    (takeInput s.cmdReady s.inputs = none ∧ step s = s.await) ∨
    (∃ w rest t, takeInput s.cmdReady s.inputs = some (.command w, rest)
      ∧ runCommand w { s with inputs := rest } = .next t
      ∧ step s = .next (State.deliver { s with inputs := rest } t)) ∨
    (∃ rest, takeInput s.cmdReady s.inputs = some (.rst, rest)
      ∧ step s = .next { s with inputs := rest }.assertReset) ∨
    (∃ credit rest, takeInput s.cmdReady s.inputs = some (.transport credit, rest)
      ∧ step s = .next ({ s with inputs := rest }.offer credit)) := by
  have hs : s.startOk = true := (startOk_iff s).mpr h
  unfold step
  rw [if_pos hs]
  cases ht : takeInput s.cmdReady s.inputs with
  | none => exact .inl ⟨rfl, rfl⟩
  | some taken =>
    obtain ⟨e, rest⟩ := taken
    cases e with
    | command w =>
      obtain ⟨t, _, _, hrun, -⟩ := runCommand_effect w { s with inputs := rest }
      exact .inr (.inl ⟨w, rest, t, rfl, hrun, by simp [acceptCommand, hrun]⟩)
    | rst => exact .inr (.inr (.inl ⟨rest, rfl, rfl⟩))
    | transport credit => exact .inr (.inr (.inr ⟨credit, rest, rfl, rfl⟩))

/-- A step from a state without the invariants is refused. -/
theorem step_refused {s : State} (h : ¬s.Inv) : step s = .refused .unreachableState := by
  have hs : s.startOk ≠ true := fun hc => h ((startOk_iff s).mp hc)
  unfold step
  rw [if_neg hs]

/-- A command at the head of the inputs of a ready block is the next input taken. -/
theorem takeInput_command {s : State} {w : CommandWord} {rest : List Input} (hf : s.inFlight = none)
    (hi : s.inputs = .command w :: rest) : takeInput s.cmdReady s.inputs = some (.command w, rest) := by
  simp [State.cmdReady, hf, hi, takeInput]

end Sys2Proof.Machine
end

