-- ==== Sys2Proof/Tests/Slice0.lean ====
section
/-! SUPPORT. Tests: words written out from the encodings of spec/30_encoding.md, ill-formed terms, single steps whose
expected results stand in spec/95_test_vectors.md (the vector is named at each), and for each statement with hypotheses
a witness that meets them. -/

namespace Sys2Proof.Tests

open Sys2Proof.Machine Sys2Proof.Claims

/-! ### The test configuration of 95_test_vectors.md and small helpers -/

/-- NOTE_TABLE[i] = 36 + i, MIDI_CHANNEL 1, VEL_ON 100, VEL_OFF 0. -/
def vectorSetup : Setup :=
  { noteTable := Vector.ofFn fun i => BitVec.ofNat 8 (36 + i.val), midiChannel := 1#8, velOn := 100#8, velOff := 0#8 }

/-- The reset state with the test configuration. -/
def fresh : State := { State.reset with cfg := { setup := vectorSetup } }

/-- The start state of the vectors: reset, INIT = 1. -/
def ready : State := { fresh with init := true }

/-- `s` with one command presented. -/
def present (s : State) (w : CommandWord) : State := { s with inputs := [.command w] }

/-- A state whose key 0 has the given STABLE bit and counter, RAW in agreement with R27. -/
def keyZero (stable : Bool) (count : Nat) : State :=
  { ready with
    stable := if stable then 1#64 else 0#64
    prev := if stable then 1#64 else 0#64
    raw := if stable != decide (count = 0) then 0#64 else 1#64
    cnt := ready.cnt.set 0 count }

/-- A state with a Note On in flight, one byte of it accepted. -/
def stalled : State := { ready with tx := [0x90#8], inFlight := some ⟨[0x3C#8, 0x64#8], noResult⟩, txCredit := .bytes 0 }

/-- With RAW32, key 40 pending from STABLE and PREV: R27 holds and R28 does not. -/
def ceilingBroken : State :=
  { ready with
    stable := 1#64 <<< 40
    prev := 1#64 <<< 40
    cnt := ready.cnt.set 40 1
    cfg := { raw32 := true, setup := vectorSetup } }

def isNext (o : Host.Outcome State Fault Refusal) : Bool :=
  match o with
  | .next _ => true
  | .fault _ => false
  | .refused _ => false

/-- The next state of an outcome; reset where there is none. -/
def stateOf (o : Host.Outcome State Fault Refusal) : State :=
  match o with
  | .next t => t
  | .fault _ => State.reset
  | .refused _ => State.reset

theorem next_stateOf {o : Host.Outcome State Fault Refusal} (h : isNext o = true) : o = .next (stateOf o) := by
  cases o with
  | next t => rfl
  | fault r => cases r
  | refused r => cases h

/-- TX after the one command. -/
def txAfter (s : State) (w : CommandWord) : List Byte := (stateOf (step (present s w))).tx

/-- The last response after the one command. -/
def rspAfter (s : State) (w : CommandWord) : Response := (stateOf (step (present s w))).responses.getLastD noResult

/-! ### Decoding: words written out bit by bit from R50 to R52 -/

/-- OP, then DATA[63:24], then A, B, C. -/
theorem test_decode_noteOn : decode (0b00000001#8 ++ (0#40 ++ (0b00000001#8 ++ (0b00111100#8 ++ 0b01100100#8))))
    = .ok (.noteOn 1 60 100) := by decide
theorem test_decode_noteOff : decode (0b00000010#8 ++ (0#40 ++ (0b00010000#8 ++ (0b00000000#8 ++ 0b01111111#8))))
    = .ok (.noteOff 16 0 127) := by decide
theorem test_decode_controlChange : decode (0b00000011#8 ++ (0#40 ++ (0b00000001#8 ++ (0b00000111#8 ++ 0b01100100#8))))
    = .ok (.controlChange 1 7 100) := by decide
theorem test_decode_programChange : decode (0b00000100#8 ++ (0#40 ++ (0b00001010#8 ++ (0b00000101#8 ++ 0b11111111#8))))
    = .ok (.programChange 10 5) := by decide
/-- The value is two's complement: 0xE000 is -8192 (PB-2). -/
theorem test_decode_pitchBend : decode (0b00000101#8 ++ (0#40 ++ (0b00000010#8 ++ 0b1110000000000000#16)))
    = .ok (.pitchBend 2 (-8192)) := by decide
theorem test_decode_allNotesOff : decode (0b00000110#8 ++ (0#40 ++ (0b00010000#8 ++ 0xFFFF#16)))
    = .ok (.allNotesOff 16) := by decide
/-- LEN = 2 in DATA[58:56], BYTE1 over BYTE0, BYTE2 ignored (SR-5). -/
theorem test_decode_sendRaw :
    decode (0b00000111#8 ++ (0b11111#5 ++ (0b010#3 ++ (0#32 ++ (0xAA#8 ++ (0xFA#8 ++ 0xF8#8))))))
    = .ok (.sendRaw [0xF8, 0xFA]) := by decide
theorem test_decode_midiInit : decode (0b00001000#8 ++ 0xFFFFFFFFFFFFFFFF#64) = .ok .midiInit := by decide
theorem test_decode_scanCycle : decode (0b00010000#8 ++ 0x8000000000000001#64)
    = .ok (.scanCycle 0x8000000000000001) := by decide
/-- "Db5" (NN-3). -/
theorem test_decode_noteName :
    decode (0b00100000#8 ++ (0#5 ++ (0b011#3 ++ (0#32 ++ (0b00110101#8 ++ (0b01100010#8 ++ 0b01000100#8))))))
    = .ok (.noteName [0x44, 0x62, 0x35]) := by decide
theorem test_decode_noteFreq : decode (0b00100001#8 ++ (0xFFFFFFFFFFFFFF#56 ++ 0b01000101#8)) = .ok (.noteFreq 69) := by
  decide
/-- IL-2: only OP selects. -/
theorem test_decode_illegal : decode 0x09_0000000000013C64#72 = .error (.illegalOpcode 0x09) := by decide
/-- SR-4: seven bytes, the first in the low bits. -/
theorem test_encode_sendRaw : encode (.sendRaw [1, 2, 3, 4, 5, 6, 7]) = 0x07_0707060504030201#72 := by decide
/-- PB-6. -/
theorem test_encode_pitchBend : encode (.pitchBend 1 (-4096)) = 0x05_000000000001F000#72 := by decide
/-- NO-1, as the host numbers a table word. -/
theorem test_tableWord : decodeTableWord 72 0x01_0000000000013C64 = some (.noteOn 1 60 100) := by decide

/-! ### Ill-formed terms are refused -/

theorem test_illFormed_pitch_low : Instr.wellFormed (.pitchBend 1 (-32769)) = false := by decide
theorem test_illFormed_pitch_high : Instr.wellFormed (.pitchBend 1 32768) = false := by decide
theorem test_illFormed_sendRaw : Instr.wellFormed (.sendRaw (List.replicate 8 0)) = false := by decide
theorem test_illFormed_noteName : Instr.wellFormed (.noteName (List.replicate 8 0)) = false := by decide

/-! ### One command on the start state of the vectors -/

/-- NO-2. -/
theorem test_noteOn_top : txAfter ready 0x01_0000000000107F7F#72 = [0x9F, 0x7F, 0x7F] := by decide
/-- NO-7: velocity 0 is out of note_on's range. -/
theorem test_noteOn_velocity_zero : txAfter ready 0x01_0000000000013C00#72 = [] := by decide
/-- NOFF-1. -/
theorem test_noteOff_velocity_zero : txAfter ready 0x02_0000000000013C00#72 = [0x80, 0x3C, 0x00] := by decide
/-- NOFF-4. -/
theorem test_noteOff_channel : txAfter ready 0x02_0000000000113C00#72 = [] := by decide
/-- CC-2. -/
theorem test_controlChange : txAfter ready 0x03_0000000000107F7F#72 = [0xBF, 0x7F, 0x7F] := by decide
/-- CC-3. -/
theorem test_controlChange_controller : txAfter ready 0x03_0000000000018000#72 = [] := by decide
/-- PC-1. -/
theorem test_programChange : txAfter ready 0x04_00000000000A0500#72 = [0xC9, 0x05] := by decide
/-- PB-4. -/
theorem test_pitchBend_minus_one : txAfter ready 0x05_000000000001FFFF#72 = [0xE0, 0x7F, 0x3F] := by decide
/-- PB-8. -/
theorem test_pitchBend_range : txAfter ready 0x05_000000000001DFFF#72 = [] := by decide
/-- AN-2. -/
theorem test_allNotesOff : txAfter ready 0x06_0000000000100000#72 = [0xBF, 0x7B, 0x00] := by decide
/-- SR-1. -/
theorem test_sendRaw : txAfter ready 0x07_0300000000FFFAF8#72 = [0xF8, 0xFA, 0xFF] := by decide
/-- SR-3: INIT = 0. -/
theorem test_sendRaw_uninitialized : txAfter fresh 0x07_0300000000FFFAF8#72 = [] := by decide
/-- MI-1. -/
theorem test_midiInit : (stateOf (step (present fresh 0x08_0000000000000000#72))).init = true := by decide
/-- NN-3. -/
theorem test_noteName_flat : rspAfter ready 0x20_0300000000356244#72 = ⟨true, 73⟩ := by decide
/-- NN-12: "G#9" computes 128. -/
theorem test_noteName_above : rspAfter ready 0x20_0300000000392347#72 = ⟨true, 255⟩ := by decide
/-- NF-1: exactly 440.0. -/
theorem test_noteFreq : rspAfter ready 0x21_0000000000000045#72 = ⟨true, 0x407B800000000000⟩ := by decide
/-- NF-7: no result; what `rsp_result` then holds is free (log 20). -/
theorem test_noteFreq_above : (rspAfter ready 0x21_0000000000000080#72).hasResult = false := by decide
/-- NF-2 to NF-6: the reference patterns are within 2^-52 of the exact frequency. -/
theorem test_withinTolerance_references :
    withinTolerance (1 / 2 ^ 52) 81 0x408B800000000000#64 = true ∧
    withinTolerance (1 / 2 ^ 52) 57 0x406B800000000000#64 = true ∧
    withinTolerance (1 / 2 ^ 52) 60 0x40705A0250C2B956#64 = true ∧
    withinTolerance (1 / 2 ^ 52) 0 0x40205A0250C2B956#64 = true ∧
    withinTolerance (1 / 2 ^ 52) 127 0x40C87FED4E47ADFE#64 = true ∧
    withinTolerance (1 / 2 ^ 52) 127 0x40C87FED4E47AE0E#64 = false := by decide +kernel

/-- DB-6: the third disagreeing reading of key 0 commits and emits its Note On. -/
theorem test_scan_commit : txAfter (keyZero false 2) 0x10_0000000000000001#72 = [0x90, 0x24, 0x64] ∧
    (stateOf (step (present (keyZero false 2) 0x10_0000000000000001#72))).stable = 1#64 ∧
    (stateOf (step (present (keyZero false 2) 0x10_0000000000000001#72))).count 0 = 0 := by decide +kernel
/-- DB-11: one agreeing reading clears the counter (90_conflicts.md C3: no decrement). -/
theorem test_scan_forgets : txAfter (keyZero true 2) 0x10_0000000000000001#72 = [] ∧
    (stateOf (step (present (keyZero true 2) 0x10_0000000000000001#72))).count 0 = 0 := by decide +kernel

/-- NO-1. -/
theorem test_assemble : assemble "NOTE_ON 1, 60, 100" = some 0x01_0000000000013C64#72 := by decide +kernel
/-- The model's choice (log 18): an underscore is skipped between the minus sign and the digits, and -0 is 0. -/
theorem test_assemble_sign : assemble "PITCH_BEND 1, -_5" = assemble "PITCH_BEND 1, -5" ∧
    assemble "NOTE_FREQ -0" = assemble "NOTE_FREQ 0" ∧ assemble "NOTE_FREQ +1" = none ∧
    assemble "NOTE_FREQ 0X1" = none ∧ assemble "PITCH_BEND 1, - 5" = none ∧ assemble "NOTE_FREQ _5" = none ∧
    assemble "NOTE_FREQ 007" = assemble "NOTE_FREQ 7" ∧ (assemble "NOTE_FREQ 0").isSome = true := by decide +kernel
/-- Operands that do not fit are refused (R57), as are literals without a digit (the model's choice, log 18). -/
theorem test_assemble_refused : assemble "SCAN32 0x1_0000_0000" = none ∧ assemble "PITCH_BEND 1, 32768" = none ∧
    assemble "NOTE_FREQ 0x_" = none ∧ assemble "PITCH_BEND 1, -_" = none := by decide +kernel

/-! ### Witnesses: each statement's hypotheses can be met together -/

/-- States with the invariants, by the start-state check. -/
theorem witness_ready_inv : ready.Inv := (startOk_iff ready).mp (by decide)
theorem witness_stalled_inv : stalled.Inv := (startOk_iff stalled).mp (by decide)
theorem witness_pending_inv : (keyZero false 2).Inv := (startOk_iff _).mp (by decide +kernel)

/-- An 8-bit opcode for each clause of OpcodeSelectsAndFieldsAreRead. -/
theorem witness_OpcodeSelectsAndFieldsAreRead :
    ∀ op ∈ [0x01#8, 0x02#8, 0x03#8, 0x04#8, 0x05#8, 0x06#8, 0x07#8, 0x08#8, 0x10#8, 0x20#8, 0x21#8],
      (op ++ 0xFFFFFFFFFFFFFFFF#64 : CommandWord).extractLsb' 64 8 = op := by decide
theorem witness_DecodeOfEncodeIsIdentity : Instr.WellFormed (.pitchBend 255 (-32768)) ∧
    Instr.WellFormed (.pitchBend 0 32767) ∧ Instr.WellFormed (.sendRaw (List.replicate 7 255)) := by decide
theorem witness_EncodeOfDecodeClearsIgnoredBits :
    decode 0x04_00000000000105FF#72 = .ok (.programChange 1 5) := by decide
theorem witness_IgnoredBitsChangeNothing :
    0x01_FFFFFFFFFF013C64#72 &&& usedBits 0x01_0000000000013C64#72
      = 0x01_0000000000013C64#72 &&& usedBits 0x01_0000000000013C64#72 := by decide
/-- Every illegal range at both ends. -/
theorem witness_IllegalCommandIsSilentNoOp :
    (∀ op ∈ [0x00, 0x09, 0x0F, 0x11, 0x1F, 0x22, 0xFF], IllegalOpcode op) ∧
    (present ready 0xFF_0000000000000000#72).Inv ∧ (present ready 0xFF_0000000000000000#72).inFlight = none ∧
    (present ready 0xFF_0000000000000000#72).inputs = .command 0xFF_0000000000000000#72 :: [] ∧
    IllegalOpcode (BitVec.extractLsb' 64 8 0xFF_0000000000000000#72).toNat := by
  refine ⟨by simp [IllegalOpcode], (startOk_iff _).mp (by decide), rfl, rfl, by simp [IllegalOpcode]⟩
/-- A row at both ends of its fields, an operand one above its range, and a line's word of both kinds. -/
theorem witness_AssembledCommandsFitTheirFields :
    assembleOperands "PITCH_BEND" [.int 255, .comma, .int (-32768)] = some (.pitchBend 255 (-32768)) ∧
    (integers [.int 0x100000000])[0]? = some 0x100000000 ∧ (fieldRange "SCAN32" 0).2 < 0x100000000 ∧
    (integers [.int 1, .comma, .int 32768])[1]? = some 32768 ∧ (fieldRange "PITCH_BEND" 1).2 < 32768 ∧
    (integers [.int (-1)])[0]? = some (-1) ∧ (-1 < (fieldRange "NOTE_FREQ" 0).1) ∧
    assembleTokens [.word ".word72".toList, .int (2 ^ 72 - 1)] = some (BitVec.allOnes 72) ∧
    String.ofList "MIDI_INIT".toList ≠ ".word72" := by decide +kernel
theorem witness_StepRunsPresentedCommand : (present ready 0x01_0000000000013C64#72).Inv ∧
    (present ready 0x01_0000000000013C64#72).inFlight = none ∧
    (present ready 0x01_0000000000013C64#72).inputs = .command 0x01_0000000000013C64#72 :: [] ∧
    decode 0x01_0000000000013C64#72 = .ok (.noteOn 1 60 100) ∧
    (present ready 0x01_0000000000013C64#72).txCredit = .unlimited :=
  ⟨(startOk_iff _).mp (by decide), rfl, rfl, by decide, rfl⟩
/-- Both clauses: no input at all, and a command in flight with one waiting. -/
theorem witness_BlockHoldsWhileNothingCanBeTaken : ready.Inv ∧ ready.inFlight = none ∧ ready.inputs = [] ∧
    (present stalled 0x08_0000000000000000#72).Inv ∧
    (present stalled 0x08_0000000000000000#72).inFlight = some ⟨[0x3C#8, 0x64#8], noResult⟩ ∧
    (∀ e ∈ (present stalled 0x08_0000000000000000#72).inputs, isCommand e = true) :=
  ⟨witness_ready_inv, rfl, rfl, (startOk_iff _).mp (by decide), rfl, by simp [present, isCommand]⟩
/-- Both outcomes: a step that runs a command, and no step on a transport that does not accept. -/
theorem witness_InvariantStatesStepOrWaitOnTheTransport : ready.Inv ∧ stalled.Inv ∧
    isNext (step (present ready 0x01_0000000000013C64#72)) = true ∧ stalled.inFlight ≠ none ∧
    (∀ e ∈ stalled.inputs, isCommand e = true) ∧ isNext (step stalled) = false :=
  ⟨witness_ready_inv, witness_stalled_inv, by decide, by decide, by simp [stalled, ready, fresh, State.reset], by decide⟩
theorem witness_NoCommandAcceptedWhileInFlight :
    let s : State := { stalled with inputs := [.command 0x08_0000000000000000#72, .transport .unlimited] }
    s.Inv ∧ s.inFlight = some ⟨[0x3C#8, 0x64#8], noResult⟩ ∧ step s = .next (stateOf (step s)) :=
  ⟨(startOk_iff _).mp (by decide), rfl, next_stateOf (by decide)⟩
theorem witness_ResetPutsEveryPieceOfStateInPlace :
    State.Inv { keyZero false 2 with inputs := [.rst] } :=
  (startOk_iff _).mp (by decide +kernel)
/-- Every prefix of NOTE_ON's three bytes, the empty and the whole one included. -/
theorem witness_AbandonedCommandLeavesItsPrefix : ∀ k ∈ [0, 1, 2, 3],
    let s : State := { ready with inputs := [.command 0x01_0000000000013C64#72, .rst], txCredit := .bytes k }
    s.Inv ∧ s.inFlight = none ∧
    runCommand 0x01_0000000000013C64#72 (taken s [.rst])
      = .next (stateOf (runCommand 0x01_0000000000013C64#72 (taken s [.rst]))) ∧
    (stateOf (runCommand 0x01_0000000000013C64#72 (taken s [.rst]))).tx = s.tx ++ [0x90, 0x3C, 0x64] := by
  intro k hk
  refine ⟨(startOk_iff _).mp ?_, rfl, rfl, ?_⟩
  · revert k
    decide +kernel
  · revert k
    decide +kernel
theorem witness_BackPressureOnlyDelays :
    let s : State := { ready with
      inputs := [.command 0x01_0000000000013C64#72, .transport .unlimited], txCredit := .bytes 1 }
    s.Inv ∧ s.inFlight = none ∧ s.txCredit = .bytes 1 :=
  ⟨(startOk_iff _).mp (by decide), rfl, rfl⟩
theorem witness_RunIsTheFoldOfItsCommands :
    let s : State := { ready with
      inputs := [0x08_0000000000000000#72, 0x01_0000000000013C64#72].map .command }
    s.Inv ∧ s.inFlight = none ∧ s.txCredit = .unlimited :=
  ⟨(startOk_iff _).mp (by decide), rfl, rfl⟩
/-- A step with the invariants before it, of a scan that commits: the hypotheses of EveryStepKeepsTheInvariants,
NoStepWritesAParameter and EmittedBytesStay. -/
theorem witness_step : (present (keyZero false 2) 0x10_0000000000000001#72).Inv ∧
    step (present (keyZero false 2) 0x10_0000000000000001#72)
      = .next (stateOf (step (present (keyZero false 2) 0x10_0000000000000001#72))) :=
  ⟨(startOk_iff _).mp (by decide +kernel), next_stateOf (by decide +kernel)⟩
theorem witness_RunsFromResetStopOnlyOnTheTransport : Reachable (State.start { setup := vectorSetup } [.rst] .unlimited) := .start ..
/-- One start state for each clause: a counter at THRESH; 0 in disagreement; pending in agreement; pending after a
flip; with RAW32, key 40 set in STABLE and PREV alone, which meets R27 and breaks R28, and key 32 set in RAW; and a
command in flight with no byte left. -/
theorem witness_StartStatesWithoutTheInvariantsAreRefused :
    (3 ≤ (keyZero false 3).count 0) ∧
    (State.count { ready with raw := 1#64 } 0 = 0 ∧ key 1#64 0 ≠ key 0#64 0) ∧
    (State.count { keyZero false 1 with raw := 0#64 } 0 ≠ 0 ∧ key 0#64 0 = key 0#64 0) ∧
    (key 0#64 0 ≠ key 1#64 0 ∧ State.count { keyZero false 1 with prev := 1#64 } 0 ≠ 0) ∧
    (ceilingBroken.cfg.raw32 = true ∧ (∀ i ∈ keys, ceilingBroken.keyOk i = true) ∧ 32 ≤ (40 : Key).val ∧
      key ceilingBroken.raw 40 = false ∧ key ceilingBroken.stable 40 = true ∧ key ceilingBroken.prev 40 = true) ∧
    (Config.raw32 { raw32 := true, setup := vectorSetup } = true ∧ key 0x100000000#64 32 = true) ∧
    (State.inFlight { ready with inFlight := some ⟨[], noResult⟩ } = some ⟨[], noResult⟩) := by
  decide +kernel
theorem witness_CountersFitAndPortsShowTheState : (keyZero false 2).Inv ∧ (keyZero false 2).inFlight = none :=
  ⟨witness_pending_inv, rfl⟩
theorem witness_CommandsWriteOnlyWhatTheyOwn : exec .midiInit ready = .next (stateOf (exec .midiInit ready)) ∧
    (∀ r, Instr.midiInit ≠ .scanCycle r) ∧ exec (.scanCycle 1) ready = .next (stateOf (exec (.scanCycle 1) ready)) ∧
    Instr.scanCycle 1 ≠ .midiInit := by
  refine ⟨rfl, by simp, rfl, by simp⟩
/-- A step that takes a Note On: no reset, no scan, no MIDI_INIT. -/
theorem witness_OnlyOwnersAndResetWriteTheRegisters :
    let s := present ready 0x01_0000000000013C64#72
    s.Inv ∧ step s = .next (stateOf (step s)) ∧ (∀ rest, takeInput s.cmdReady s.inputs ≠ some (.rst, rest)) ∧
    (∀ w rest r, takeInput s.cmdReady s.inputs = some (.command w, rest) → decode w ≠ .ok (.scanCycle r)) ∧
    (∀ w rest, takeInput s.cmdReady s.inputs = some (.command w, rest) → decode w ≠ .ok .midiInit) ∧
    s.init = true := by
  have ht : takeInput (present ready 0x01_0000000000013C64#72).cmdReady (present ready 0x01_0000000000013C64#72).inputs
      = some (.command 0x01_0000000000013C64#72, []) := rfl
  have hd : decode 0x01_0000000000013C64#72 = .ok (.noteOn 1 60 100) := by decide
  refine ⟨(startOk_iff _).mp (by decide), next_stateOf (by decide), ?_, ?_, ?_, rfl⟩
  · simp [ht]
  · intro w rest r h
    rw [ht] at h
    cases h
    simp [hd]
  · intro w rest h
    rw [ht] at h
    cases h
    simp [hd]
theorem witness_UninitializedBlockIsSilent : fresh.init = false := rfl
/-- One key in each clause: key 0 agrees, key 1 counts up, key 2 commits. -/
theorem witness_DebounceFollowsItsRules :
    let s : State := { ready with raw := 0b100#64, cnt := ready.cnt.set 2 2 }
    reading s 0b110#64 0 = key s.stable 0 ∧
    (reading s 0b110#64 1 ≠ key s.stable 1 ∧ s.count 1 + 1 ≠ s.cfg.thresh) ∧
    (reading s 0b110#64 2 ≠ key s.stable 2 ∧ s.count 2 + 1 = s.cfg.thresh) ∧ s.count 2 < s.cfg.thresh := by
  decide +kernel
theorem witness_DebounceOrderDoesNotMatter : keys.reverse.Perm keys ∧ keys.reverse ≠ keys ∧ (63 : Key) ≠ 0 ∧
    ready.cfg.thresh = fresh.cfg.thresh ∧ reading ready 0b11#64 0 = reading fresh 0b01#64 0 ∧
    key ready.stable 0 = key fresh.stable 0 ∧ ready.count 0 = fresh.count 0 :=
  ⟨List.reverse_perm keys, by decide +kernel, by decide, rfl, by decide +kernel, rfl, rfl⟩
theorem witness_ThresholdDisagreementsCommit : ready.count 19 = 0 ∧
    (List.replicate 3 0x80000#64).length = ready.cfg.thresh ∧
    (∀ r ∈ List.replicate 3 0x80000#64, reading ready r 19 ≠ key ready.stable 19) := by
  refine ⟨by decide +kernel, rfl, fun r hr => ?_⟩
  rw [List.eq_of_mem_replicate hr]
  decide +kernel
theorem witness_ShortDisagreementIsForgotten : ready.count 5 = 0 ∧
    (List.replicate 2 0x20#64).length < ready.cfg.thresh ∧ reading ready 0#64 5 = key ready.stable 5 := by decide +kernel
/-- Both phases: one that begins with a disagreeing reading, and one that begins with an agreeing reading while a
transition is pending. -/
theorem witness_AlternatingReadingNeverCommits : 2 ≤ ready.cfg.thresh ∧
    (∀ n (h : n + 1 < [1#64, 0#64, 1#64].length),
      reading ready [1#64, 0#64, 1#64][n + 1] 0 ≠ reading ready [1#64, 0#64, 1#64][n] 0) ∧
    reading ready 1#64 0 ≠ key ready.stable 0 ∧ ready.count 0 = 0 ∧
    (∀ n (h : n + 1 < [0#64, 1#64].length), reading (keyZero false 2) [0#64, 1#64][n + 1] 0
      ≠ reading (keyZero false 2) [0#64, 1#64][n] 0) ∧
    reading (keyZero false 2) 0#64 0 = key (keyZero false 2).stable 0 ∧ (keyZero false 2).count 0 ≠ 0 := by
  refine ⟨by decide, fun n h => ?_, by decide +kernel, by decide +kernel, fun n h => ?_, by decide +kernel,
    by decide +kernel⟩
  · have h' : n + 1 < 3 := h
    obtain rfl | rfl : n = 0 ∨ n = 1 := by omega
    · show reading ready 0#64 0 ≠ reading ready 1#64 0
      decide +kernel
    · show reading ready 1#64 0 ≠ reading ready 0#64 0
      decide +kernel
  · have h' : n + 1 < 2 := h
    obtain rfl : n = 0 := by omega
    show reading (keyZero false 2) 1#64 0 ≠ reading (keyZero false 2) 0#64 0
    decide +kernel
theorem witness_Raw32KeysNeverFlip :
    let s : State := { ready with cfg := { raw32 := true, setup := vectorSetup } }
    s.Inv ∧ s.cfg.raw32 = true ∧ 32 ≤ (32 : Key).val :=
  ⟨(startOk_iff _).mp (by decide), rfl, by decide⟩
theorem witness_HeldKeysReportInTheThresholdScan : ready.stable = 0#64 ∧ (∀ i : Key, ready.count i = 0) ∧
    ready.init = true := by
  refine ⟨rfl, fun i => ?_, rfl⟩
  simp [ready, fresh, State.reset, State.count]
theorem witness_CommitsDoNotDependOnEmission : ready.stable = fresh.stable ∧ ready.cnt = fresh.cnt ∧
    ready.cfg.thresh = fresh.cfg.thresh ∧ ready.cfg.raw32 = fresh.cfg.raw32 ∧ ready.init ≠ fresh.init :=
  ⟨rfl, rfl, rfl, rfl, by decide⟩
theorem witness_MessagesHaveStatusAndDataBytes : channelOf (.programChange 16 5) = some 16 ∧
    exec (.programChange 16 5) ready = .next (stateOf (exec (.programChange 16 5) ready)) := ⟨rfl, rfl⟩
theorem witness_PitchBendBytesGiveTheValueBack : ready.init = true ∧ ChannelInRange 1 ∧ ChannelInRange 16 ∧
    (-8192 : Int) ≤ -8192 ∧ (8191 : Int) ≤ 8191 :=
  ⟨rfl, by simp [ChannelInRange], by simp [ChannelInRange], by decide, by decide⟩
theorem witness_NamedNotesAreTwelveAndUp : (11 ≤ 127 ∧ 12 ≤ 127 ∧ 127 ≤ 127) := by decide
theorem witness_FrequenciesObeyTheirLaws : (69#8).toNat ≤ 127 ∧ (0#8).toNat ≤ 127 ∧ (127#8).toNat ≤ 127 := by decide

end Sys2Proof.Tests
end

section
/-! Proofs for the scope and the parameters (spec/00_scope.md): the effect of each kind of command said once, the
parameters through the transport and through a step, and the values after `rst`. -/

namespace Sys2Proof.Proofs

open Sys2Proof.Machine Sys2Proof.Claims

/-! ### What a command can do -/

/-- A message command appends bytes to TX and responds without a result (R74, R80). -/
theorem respond_sendMessage_eq_answered (s : State) (message : Option (List Byte)) (r : Response) :
    (s.sendMessage message).respond r = answered s (if s.init then message.getD [] else []) r := by
  rw [sendMessage_eq]
  rfl

/-- The key events of a scan append bytes to TX, and the scan responds without a result (R67, R80). -/
theorem respond_keyEvents_eq_answered (s : State) (r : Response) :
    s.keyEvents.respond r = answered s (if s.init then keys.flatMap s.eventBytes else []) r := by
  rw [keyEvents_eq]
  rfl

/-- A command that emits nothing only responds (R55). -/
theorem respond_eq_answered (s : State) (r : Response) : s.respond r = answered s [] r := by
  simp [State.respond, answered]

/-- Which registers a command can write: MIDI_INIT sets INIT, SCAN_CYCLE makes the scan's register updates, and every
other command only emits and responds. -/
theorem exec_cases (i : Instr) (s : State) :
    (∃ bytes r, exec i s = .next (answered s bytes r)) ∨
    (i = .midiInit ∧ exec i s = .next (answered s.setInit [] noResult)) ∨
    (∃ raw bytes, i = .scanCycle raw
      ∧ exec i s = .next (answered (s.scanRegisters (captureRaw s.cfg.raw32 raw)) bytes noResult)) := by
  have message (m : Option (List Byte)) : ∃ bytes r, Host.Outcome.next ((s.sendMessage m).respond Response.none)
      = (.next (answered s bytes r) : Host.Outcome State Fault Refusal) :=
    ⟨_, _, congrArg _ (respond_sendMessage_eq_answered s m Response.none)⟩
  cases i with
  | noteOn ch note vel => exact .inl (message _)
  | noteOff ch note vel => exact .inl (message _)
  | controlChange ch ctl val => exact .inl (message _)
  | programChange ch prog => exact .inl (message _)
  | pitchBend ch value => exact .inl (message _)
  | allNotesOff ch => exact .inl (message _)
  | sendRaw bytes => exact .inl (message (some bytes))
  | noteName chars => exact .inl ⟨[], _, congrArg _ (respond_eq_answered s _)⟩
  | noteFreq note => exact .inl ⟨[], _, congrArg _ (respond_eq_answered s _)⟩
  | midiInit => exact .inr (.inl ⟨rfl, congrArg _ (respond_eq_answered s.setInit noResult)⟩)
  | scanCycle raw => exact .inr (.inr ⟨raw, _, rfl, congrArg _ (respond_keyEvents_eq_answered _ noResult)⟩)

/-- Settles O22: the registers by the kind of command (`exec_cases`), the rest by what every command leaves alone
(`exec_effect`). -/
theorem commandsWriteOnlyWhatTheyOwn : Obligations.CommandsWriteOnlyWhatTheyOwn := by
  intro i s t ht
  refine ⟨fun hscan => ?_, fun hinit => ?_, ?_⟩
  · obtain ⟨bytes, r, h⟩ | ⟨-, h⟩ | ⟨raw, bytes, rfl, -⟩ := exec_cases i s
    · cases h.symm.trans ht
      exact ⟨rfl, rfl, rfl, rfl⟩
    · cases h.symm.trans ht
      exact ⟨rfl, rfl, rfl, rfl⟩
    · exact absurd rfl (hscan raw)
  · obtain ⟨bytes, r, h⟩ | ⟨rfl, -⟩ | ⟨raw, bytes, -, h⟩ := exec_cases i s
    · cases h.symm.trans ht
      rfl
    · exact absurd rfl hinit
    · cases h.symm.trans ht
      rfl
  · obtain ⟨u, bytes, r, h, hu⟩ := exec_effect i s
    cases h.symm.trans ht
    rw [hu]
    exact ⟨rfl, rfl, rfl, rfl, rfl, List.prefix_append s.tx bytes⟩

/-! ### The parameters (R8) -/

@[simp] theorem transmit_cfg (s : State) (bytes : List Byte) (r : Response) :
    (s.transmit bytes r).cfg = s.cfg := by
  obtain ⟨credit, h⟩ | ⟨n, -, -, h⟩ := transmit_cases s bytes r <;> rw [h]

@[simp] theorem deliver_cfg (s t : State) : (s.deliver t).cfg = t.cfg := by
  simp [State.deliver]

@[simp] theorem offer_cfg (s : State) (credit : TxCredit) : (s.offer credit).cfg = s.cfg := by
  unfold State.offer
  cases s.inFlight with
  | none => rfl
  | some f => simp

theorem runCommand_cfg {w : CommandWord} {s t : State} (h : runCommand w s = .next t) : t.cfg = s.cfg := by
  obtain ⟨u, bytes, r, hu, heq⟩ := runCommand_effect w s
  cases hu.symm.trans h
  rw [heq]

theorem await_eq_next {s t : State} (h : s.await = .next t) : t = s := by
  cases hr : s.cmdReady with
  | true => simpa [hr] using h.symm
  | false => simp [hr] at h

/-- Settles O24, by what a step can do (`step_cases`): wait, run a command and deliver it, reset, or serve the
transport. -/
theorem noStepWritesAParameter : Obligations.NoStepWritesAParameter := by
  intro s t ht
  by_cases hinv : s.Inv
  case neg => simp [step_refused hinv] at ht
  obtain ⟨-, h⟩ | ⟨w, rest, u, -, hrun, h⟩ | ⟨rest, -, h⟩ | ⟨credit, rest, -, h⟩ := step_cases hinv
  · rw [await_eq_next (h.symm.trans ht)]
  · cases h.symm.trans ht
    rw [deliver_cfg, runCommand_cfg hrun]
  · cases h.symm.trans ht
    rfl
  · cases h.symm.trans ht
    rw [offer_cfg]

/-! ### Reset (R113, R114) -/

@[simp] theorem assertReset_changes (s : State) : s.assertReset.changes = 0#64 := by
  simp [State.changes]

@[simp] theorem assertReset_cmdReady (s : State) : s.assertReset.cmdReady = true := rfl

/-- Resetting the block that has just left reset changes nothing, so that `State.reset` has the values of `rst`. -/
theorem assertReset_reset : State.reset.assertReset = State.reset := rfl

/-- A step that takes `rst`, ready or with a command in flight, is the reset. -/
theorem step_rst {s : State} {rest : List Input} (h : s.Inv)
    (ht : takeInput s.cmdReady s.inputs = some (.rst, rest)) : step s = .next (taken s rest).assertReset := by
  simp [step, (startOk_iff s).mpr h, ht, taken]

/-- Settles O12: the values of each field after `rst`, the step that takes it, and `State.reset` as its own reset. -/
theorem resetPutsEveryPieceOfStateInPlace : Obligations.ResetPutsEveryPieceOfStateInPlace := by
  refine ⟨fun s => ?_, fun s rest hinv hi => ?_, ?_⟩
  · simp
  · exact step_rst hinv (by rw [hi]; rfl)
  · rw [← assertReset_reset]
    simp

end Sys2Proof.Proofs
end

section
/-! Proofs for the state (spec/10_state.md): the invariants of R27, R28 and the handshake through each operation and
through a step, the progress of a step, the owners of the registers, and a run as the fold of its commands. -/

namespace Sys2Proof.Proofs

open Sys2Proof.Machine Sys2Proof.Claims

/-! ### The registers through the transport -/

/-- The registers of R13 and the parameters are the same in both states. -/
structure SameRegisters (s t : State) : Prop where
  raw : t.raw = s.raw
  stable : t.stable = s.stable
  prev : t.prev = s.prev
  cnt : t.cnt = s.cnt
  init : t.init = s.init
  cfg : t.cfg = s.cfg

theorem answered_sameRegisters (s : State) (bytes : List Byte) (r : Response) :
    SameRegisters s (answered s bytes r) := ⟨rfl, rfl, rfl, rfl, rfl, rfl⟩

/-- Offering bytes to the transport passes on the registers that the state has in common with another. -/
theorem transmit_sameRegisters {s t : State} (h : SameRegisters s t) (bytes : List Byte) (r : Response) :
    SameRegisters s (t.transmit bytes r) := by
  obtain ⟨hraw, hstable, hprev, hcnt, hinit, hcfg⟩ := h
  obtain ⟨credit, ht⟩ | ⟨n, -, -, ht⟩ := transmit_cases t bytes r
  · rw [ht]
    exact ⟨hraw, hstable, hprev, hcnt, hinit, hcfg⟩
  · rw [ht]
    exact ⟨hraw, hstable, hprev, hcnt, hinit, hcfg⟩

/-- Delivery passes the registers of the command's effect on: it only spreads the bytes over time (R42). -/
theorem deliver_sameRegisters (s t : State) : SameRegisters t (s.deliver t) := by
  unfold State.deliver
  refine transmit_sameRegisters ?_ _ _
  exact ⟨rfl, rfl, rfl, rfl, rfl, rfl⟩

theorem offer_sameRegisters (s : State) (credit : TxCredit) : SameRegisters s (s.offer credit) := by
  unfold State.offer
  cases s.inFlight with
  | none => exact ⟨rfl, rfl, rfl, rfl, rfl, rfl⟩
  | some f =>
    refine transmit_sameRegisters ?_ f.rest f.response
    exact ⟨rfl, rfl, rfl, rfl, rfl, rfl⟩

/-! ### The invariants through each operation -/

/-- The invariants are about the registers and the command in flight alone. -/
theorem inv_of_sameRegisters {s t : State} (h : s.Inv) (hst : SameRegisters s t)
    (hf : ∀ f, t.inFlight = some f → f.rest ≠ []) : t.Inv := by
  obtain ⟨hraw, hstable, hprev, hcnt, -, hcfg⟩ := hst
  have hcount (i : Key) : t.count i = s.count i := by simp [State.count, hcnt]
  obtain ⟨below, zero, idle, ceiling, -⟩ := h
  refine ⟨?_, ?_, ?_, ?_, hf⟩
  · simpa only [hcount, hcfg] using below
  · simpa only [hcount, hraw, hstable] using zero
  · simpa only [hcount, hstable, hprev] using idle
  · simpa only [hcount, hraw, hstable, hprev, hcfg] using ceiling

theorem answered_inv {s : State} (h : s.Inv) (bytes : List Byte) (r : Response) : (answered s bytes r).Inv :=
  inv_of_sameRegisters h (answered_sameRegisters s bytes r) h.inFlightLeft

/-- What the transport leaves in flight has a byte left, whatever was in flight before (R48). -/
theorem transmit_inFlightLeft {s : State} {bytes : List Byte} {r : Response} {f : InFlight}
    (h : (s.transmit bytes r).inFlight = some f) : f.rest ≠ [] := by
  obtain ⟨credit, ht⟩ | ⟨n, -, hn, ht⟩ := transmit_cases s bytes r
  · simp [ht] at h
  · rw [ht] at h
    cases h
    simpa using hn

theorem deliver_inv {t : State} (h : t.Inv) (s : State) : (s.deliver t).Inv :=
  inv_of_sameRegisters h (deliver_sameRegisters s t) fun _ => transmit_inFlightLeft

theorem offer_inv {s : State} (h : s.Inv) (credit : TxCredit) : (s.offer credit).Inv := by
  refine inv_of_sameRegisters h (offer_sameRegisters s credit) fun f hf => ?_
  unfold State.offer at hf
  cases hs : s.inFlight with
  | none => simp [hs] at hf
  | some g =>
    rw [hs] at hf
    exact transmit_inFlightLeft hf

/-- THRESH is at least 1 and fits CNT_W bits (R7). -/
theorem thresh_bounds (cfg : Config) : 0 < cfg.thresh ∧ cfg.thresh ≤ 2 ^ cfg.cntW - 1 := by
  have h := cfg.ok
  simp only [thresholdOk, Bool.and_eq_true, decide_eq_true_eq] at h
  obtain ⟨⟨-, hpos⟩, hfit⟩ := h
  exact ⟨hpos, hfit⟩

/-- Registers at 0 and no command in flight meet the invariants under every configuration, THRESH being at least 1. -/
theorem assertReset_inv (s : State) : s.assertReset.Inv := by
  refine ⟨fun i => ?_, fun i => ?_, fun i => ?_, fun _ i _ => ?_, fun f hf => ?_⟩
  · simpa using (thresh_bounds s.cfg).1
  · simp
  · simp
  · simp
  · simp at hf

/-- With RAW32 the upper half of the captured bitmap is 0 (R61). -/
theorem key_captureRaw_of_raw32 (r : Bitmap) {i : Key} (hi : 32 ≤ i.val) : key (captureRaw true r) i = false := by
  simp [key, captureRaw, hi]

/-- A scan keeps the invariants: R27 lane by lane (`lane_inv`); R28 because a released key that reads released stays
so. -/
theorem scanRegisters_inv {s : State} (h : s.Inv) (r : Bitmap) :
    (s.scanRegisters (captureRaw s.cfg.raw32 r)).Inv := by
  have lane (i : Key) := lane_inv (p := key (captureRaw s.cfg.raw32 r) i) (q := key s.stable i) (h.counterBelow i)
  refine ⟨fun i => ?_, fun i => ?_, fun i => ?_, fun h32 i hi => ?_, h.inFlightLeft⟩
  · simpa [State.lane] using (lane i).1
  · simpa [State.lane] using (lane i).2.1
  · simpa [State.lane] using (lane i).2.2
  · have hcfg : s.cfg.raw32 = true := h32
    obtain ⟨-, hstable, -, -⟩ := h.ceiling hcfg i hi
    simp [State.lane, hcfg, key_captureRaw_of_raw32 r hi, hstable]

theorem setInit_inv {s : State} (h : s.Inv) : s.setInit.Inv :=
  ⟨h.counterBelow, h.counterZero, h.flippedIdle, h.ceiling, h.inFlightLeft⟩

/-- Which registers a command word can write: `exec_cases` for a legal command, none for an illegal one (R53). -/
theorem runCommand_cases (w : CommandWord) (s : State) :
    (∃ bytes r, runCommand w s = .next (answered s bytes r)) ∨
    (decode w = .ok .midiInit ∧ runCommand w s = .next (answered s.setInit [] noResult)) ∨
    (∃ raw bytes, decode w = .ok (.scanCycle raw)
      ∧ runCommand w s = .next (answered (s.scanRegisters (captureRaw s.cfg.raw32 raw)) bytes noResult)) := by
  unfold runCommand
  cases decode w with
  | error e => exact .inl ⟨[], _, congrArg _ (respond_eq_answered s _)⟩
  | ok i =>
    obtain h | ⟨rfl, h⟩ | ⟨raw, bytes, rfl, h⟩ := exec_cases i s
    · exact .inl h
    · exact .inr (.inl ⟨rfl, h⟩)
    · exact .inr (.inr ⟨raw, bytes, rfl, h⟩)

theorem runCommand_inv {w : CommandWord} {s t : State} (h : s.Inv) (ht : runCommand w s = .next t) : t.Inv := by
  obtain ⟨bytes, r, hrun⟩ | ⟨-, hrun⟩ | ⟨raw, bytes, -, hrun⟩ := runCommand_cases w s
  · cases hrun.symm.trans ht
    exact answered_inv h bytes r
  · cases hrun.symm.trans ht
    exact answered_inv (setInit_inv h) [] noResult
  · cases hrun.symm.trans ht
    exact answered_inv (scanRegisters_inv h raw) bytes noResult

theorem taken_inv {s : State} (h : s.Inv) (rest : List Input) : (taken s rest).Inv :=
  ⟨h.counterBelow, h.counterZero, h.flippedIdle, h.ceiling, h.inFlightLeft⟩

/-! ### Progress of a step -/

theorem isCommand_iff (e : Input) : isCommand e = true ↔ ∃ w, e = .command w := by
  cases e <;> simp [isCommand]

/-- A command is in flight and nothing but presented commands is to come (R112). -/
def Stalled (s : State) : Prop := s.inFlight ≠ none ∧ ∀ e ∈ s.inputs, isCommand e = true

theorem cmdReady_eq_false_iff (s : State) : s.cmdReady = false ↔ s.inFlight ≠ none := by
  simp [State.cmdReady, Option.isSome_iff_ne_none]

/-- A stalled block is one that is busy and has nothing to take. -/
theorem stalled_iff (s : State) : Stalled s ↔ s.cmdReady = false ∧ takeInput s.cmdReady s.inputs = none := by
  rw [Stalled, cmdReady_eq_false_iff, takeInput_eq_none, cmdReady_eq_false_iff]
  simp only [isCommand_iff]
  refine and_congr_right fun hf => ⟨fun h => .inr ⟨hf, h⟩, ?_⟩
  rintro (hnil | ⟨-, h⟩)
  · simp [hnil]
  · exact h

/-- From a state with the invariants there is no step exactly when the block is stalled (R105, R112). -/
theorem step_eq_transportStall_iff {s : State} (h : s.Inv) : step s = .refused .transportStall ↔ Stalled s := by
  rw [stalled_iff]
  obtain ⟨ht, hs⟩ | ⟨w, rest, u, ht, -, hs⟩ | ⟨rest, ht, hs⟩ | ⟨credit, rest, ht, hs⟩ := step_cases h
  · cases hr : s.cmdReady with
    | true => simp [hs, hr]
    | false => simpa [hs, hr] using ht
  · simp [hs, ht]
  · simp [hs, ht]
  · simp [hs, ht]

/-- A step from a state with the invariants answers a state that has them again, or the block is stalled. -/
theorem step_progress {s : State} (h : s.Inv) :
    (∃ t, step s = .next t ∧ t.Inv) ∨ step s = .refused .transportStall := by
  obtain ⟨-, hs⟩ | ⟨w, rest, u, -, hrun, hs⟩ | ⟨rest, -, hs⟩ | ⟨credit, rest, -, hs⟩ := step_cases h
  · cases hr : s.cmdReady with
    | true => exact .inl ⟨s, by rw [hs, await_ready hr], h⟩
    | false => exact .inr (by rw [hs, await_busy hr])
  · exact .inl ⟨_, hs, deliver_inv (runCommand_inv (taken_inv h rest) hrun) _⟩
  · exact .inl ⟨_, hs, assertReset_inv _⟩
  · exact .inl ⟨_, hs, offer_inv (taken_inv h rest) credit⟩

theorem step_inv {s t : State} (h : s.Inv) (ht : step s = .next t) : t.Inv := by
  obtain ⟨u, hu, hinv⟩ | hstall := step_progress h
  · cases hu.symm.trans ht
    exact hinv
  · cases hstall.symm.trans ht

/-- Settles O17, by what a step can do and the invariants through each operation. -/
theorem everyStepKeepsTheInvariants : Obligations.EveryStepKeepsTheInvariants :=
  fun _ _ => step_inv

/-- Settles O53: progress with the invariants, and when the block is stalled. -/
theorem invariantStatesStepOrWaitOnTheTransport : Obligations.InvariantStatesStepOrWaitOnTheTransport :=
  fun _ h => ⟨step_progress h, step_eq_transportStall_iff h⟩

/-! ### Runs from reset -/

/-- The start of a run is the reset of the block with the configuration, the inputs and the transport it starts with. -/
theorem start_inv (cfg : Config) (inputs : List Input) (credit : TxCredit) : (State.start cfg inputs credit).Inv :=
  assertReset_inv (State.start cfg inputs credit)

/-- Settles O16: every start state is the reset of itself, `State.reset` included. -/
theorem resetStateHasTheInvariants : Obligations.ResetStateHasTheInvariants :=
  ⟨assertReset_inv State.reset, start_inv⟩

theorem reachable_inv {s : State} (h : Reachable s) : s.Inv := by
  induction h with
  | start cfg inputs credit => exact start_inv cfg inputs credit
  | step _ ht ih => exact step_inv ih ht

/-- Settles O18: a reachable state has the invariants, and a state with the invariants steps or is stalled. -/
theorem runsFromResetStopOnlyOnTheTransport : Obligations.RunsFromResetStopOnlyOnTheTransport := by
  intro s hs
  have h := reachable_inv hs
  refine ⟨h, ?_⟩
  obtain ⟨t, ht, -⟩ | hstall := step_progress h
  · exact .inl ⟨t, ht⟩
  · exact .inr ⟨hstall, (step_eq_transportStall_iff h).mp hstall⟩

/-! ### The states that are refused -/

/-- A step is refused for its start state exactly if that lacks the invariants. -/
theorem step_eq_unreachableState_iff (s : State) : step s = .refused .unreachableState ↔ ¬ s.Inv := by
  refine ⟨fun hs h => ?_, step_refused⟩
  obtain ⟨t, ht, -⟩ | hstall := step_progress h
  · cases ht.symm.trans hs
  · cases hstall.symm.trans hs

/-- Settles O19: the second equivalence is De Morgan over the clauses of the invariants, R27's second clause in its two
directions. -/
theorem startStatesWithoutTheInvariantsAreRefused : Obligations.StartStatesWithoutTheInvariantsAreRefused := by
  refine fun s => ⟨step_eq_unreachableState_iff s, ⟨fun h => ?_, ?_⟩⟩
  · by_contra hc
    push Not at hc
    obtain ⟨below, agree, pending, idle, ceiling, left⟩ := hc
    refine h ⟨below, fun i => ⟨agree i, fun heq => by_contra fun hne => pending i hne heq⟩, idle, ?_, left⟩
    intro h32 i hi
    simpa using ceiling h32 i hi
  · rintro (⟨i, hi⟩ | ⟨i, hz, hne⟩ | ⟨i, hnz, heq⟩ | ⟨i, hne, hnz⟩ | ⟨h32, i, hi, hset⟩ | ⟨f, hf, hnil⟩) h
    · exact absurd (h.counterBelow i) (Nat.not_lt.mpr hi)
    · exact hne ((h.counterZero i).mp hz)
    · exact hnz ((h.counterZero i).mpr heq)
    · exact hnz (h.flippedIdle i hne)
    · simp [h.ceiling h32 i hi] at hset
    · exact h.inFlightLeft f hf hnil

/-! ### The counters and the observation outputs -/

theorem count_le {s : State} (h : s.Inv) (i : Key) : s.count i ≤ 2 ^ s.cfg.cntW - 1 :=
  (h.counterBelow i).le.trans (thresh_bounds s.cfg).2

/-- Settles O20: a counter is below THRESH, which fits CNT_W bits, so that the CNT output loses none of its bits. -/
theorem countersFitAndPortsShowTheState : Obligations.CountersFitAndPortsShowTheState := by
  refine fun s h => ⟨count_le h, fun hf => ?_⟩
  have hr : s.cmdReady = true := by simp [State.cmdReady, hf]
  refine ⟨_, if_pos hr, rfl, rfl, rfl, rfl, rfl, fun i => ?_⟩
  have hfit : s.count i < 2 ^ s.cfg.cntW := by
    have := count_le h i
    have := Nat.two_pow_pos s.cfg.cntW
    omega
  rw [Vector.getElem_map, BitVec.toNat_ofNat]
  exact Nat.mod_eq_of_lt hfit

/-! ### The owners of the registers (R25) -/

/-- Settles O23: the transport passes the registers on, and a command word writes only those it owns
(`runCommand_cases`). -/
theorem onlyOwnersAndResetWriteTheRegisters : Obligations.OnlyOwnersAndResetWriteTheRegisters := by
  intro s t h ht hrst
  obtain ⟨-, hs⟩ | ⟨w, rest, u, hw, hrun, hs⟩ | ⟨rest, hw, -⟩ | ⟨credit, rest, -, hs⟩ := step_cases h
  · rw [await_eq_next (hs.symm.trans ht)]
    exact ⟨fun _ => ⟨rfl, rfl, rfl, rfl⟩, fun _ => rfl, id⟩
  · cases hs.symm.trans ht
    obtain ⟨hraw, hstable, hprev, hcnt, hinit, -⟩ := deliver_sameRegisters { s with inputs := rest } u
    rw [hraw, hstable, hprev, hcnt, hinit]
    obtain ⟨bytes, r, hu⟩ | ⟨hd, hu⟩ | ⟨raw, bytes, hd, hu⟩ := runCommand_cases w { s with inputs := rest }
    · cases hu.symm.trans hrun
      exact ⟨fun _ => ⟨rfl, rfl, rfl, rfl⟩, fun _ => rfl, id⟩
    · cases hu.symm.trans hrun
      exact ⟨fun _ => ⟨rfl, rfl, rfl, rfl⟩, fun hmidi => absurd hd (hmidi w rest hw), fun _ => rfl⟩
    · cases hu.symm.trans hrun
      exact ⟨fun hscan => absurd hd (hscan w rest raw hw), fun _ => rfl, id⟩
  · exact absurd hw (hrst rest)
  · cases hs.symm.trans ht
    obtain ⟨hraw, hstable, hprev, hcnt, hinit, -⟩ := offer_sameRegisters { s with inputs := rest } credit
    exact ⟨fun _ => ⟨hraw, hstable, hprev, hcnt⟩, fun _ => hinit, hinit.trans⟩

/-! ### RAW32 (R28) -/

/-- The whole effect of a scan: the registers' update, and the bytes of the key events. -/
theorem scanOnce_eq_answered (s : State) (r : Bitmap) : scanOnce s r
    = answered (s.scanRegisters (captureRaw s.cfg.raw32 r))
        (if s.init then keys.flatMap (s.scanRegisters (captureRaw s.cfg.raw32 r)).eventBytes else []) noResult :=
  respond_keyEvents_eq_answered _ _

theorem scanOnce_inv {s : State} (h : s.Inv) (r : Bitmap) : (scanOnce s r).Inv := by
  rw [scanOnce_eq_answered]
  exact answered_inv (scanRegisters_inv h r) _ _

theorem scanOnce_cfg (s : State) (r : Bitmap) : (scanOnce s r).cfg = s.cfg := by
  rw [scanOnce_eq_answered]
  rfl

/-- Settles O35: a scan keeps the invariants, and R28 is one of them; CHANGES is 0 where STABLE and PREV are. -/
theorem raw32KeysNeverFlip : Obligations.Raw32KeysNeverFlip := by
  intro s r i h h32 hi
  obtain ⟨hraw, hstable, hprev, hcnt⟩ := (scanOnce_inv h r).ceiling (by rw [scanOnce_cfg, h32]) i hi
  exact ⟨hraw, hstable, hprev, hcnt, by simp [State.changes, hstable, hprev]⟩

/-! ### The shape of a command, in every state -/

/-- Each command hands one message to SendBytes, answers a query, or is MIDI_INIT or SCAN_CYCLE; which one, and with
which message, depends on the command alone. -/
theorem exec_shape (i : Instr) :
    (∃ message, ∀ s, exec i s = .next ((State.sendMessage s message).respond Response.none)) ∨
    (∃ answer : Config → Nat → Response, ∀ s, exec i s = .next (s.respond (answer s.cfg s.responses.length))) ∨
    i = .midiInit ∨ ∃ raw, i = .scanCycle raw := by
  cases i with
  | noteOn ch note vel => exact .inl ⟨_, fun _ => rfl⟩
  | noteOff ch note vel => exact .inl ⟨_, fun _ => rfl⟩
  | controlChange ch ctl val => exact .inl ⟨_, fun _ => rfl⟩
  | programChange ch prog => exact .inl ⟨_, fun _ => rfl⟩
  | pitchBend ch value => exact .inl ⟨_, fun _ => rfl⟩
  | allNotesOff ch => exact .inl ⟨_, fun _ => rfl⟩
  | sendRaw bytes => exact .inl ⟨some bytes, fun _ => rfl⟩
  | noteName chars => exact .inr (.inl ⟨fun _ _ => .value ((noteNameToNumber chars).setWidth 64), fun _ => rfl⟩)
  | noteFreq note =>
    exact .inr (.inl ⟨fun cfg n => freqResponse cfg.setup.freqFn note (Config.freeResult n), fun _ => rfl⟩)
  | midiInit => exact .inr (.inr (.inl rfl))
  | scanCycle raw => exact .inr (.inr (.inr ⟨raw, rfl⟩))

/-- Settles O26: what emits is SendBytes, in a message and in the key events, and it is silent while INIT is 0. -/
theorem uninitializedBlockIsSilent : Obligations.UninitializedBlockIsSilent := by
  intro i s hs
  obtain ⟨message, h⟩ | ⟨answer, h⟩ | rfl | ⟨raw, rfl⟩ := exec_shape i
  · exact ⟨_, h s, by simp [sendMessage_eq, hs]⟩
  · exact ⟨_, h s, rfl⟩
  · exact ⟨_, rfl, rfl⟩
  · exact ⟨_, rfl, by simp [keyEvents_eq, hs]⟩

/-! ### A run as the fold of its commands (R43) -/

/-- What waits at the pins has no part in a command's effect. -/
theorem exec_taken {i : Instr} {s t : State} (h : exec i s = .next t) (rest : List Input) :
    exec i (taken s rest) = .next (taken t rest) := by
  obtain ⟨message, hi⟩ | ⟨answer, hi⟩ | rfl | ⟨raw, rfl⟩ := exec_shape i
  · cases (hi s).symm.trans h
    rw [hi, respond_sendMessage_eq_answered, respond_sendMessage_eq_answered]
    rfl
  · cases (hi s).symm.trans h
    rw [hi]
    rfl
  · cases h
    rfl
  · cases h
    change Host.Outcome.next (scanOnce (taken s rest) raw) = .next (taken (scanOnce s raw) rest)
    rw [scanOnce_eq_answered, scanOnce_eq_answered]
    rfl

theorem runCommand_taken {w : CommandWord} {s t : State} (h : runCommand w s = .next t) (rest : List Input) :
    runCommand w (taken s rest) = .next (taken t rest) := by
  unfold runCommand at h ⊢
  cases hd : decode w with
  | ok i =>
    rw [hd] at h
    exact exec_taken h rest
  | error e =>
    rw [hd] at h
    cases h
    rfl

theorem runCommand_eq_afterWord (w : CommandWord) (s : State) : runCommand w s = .next (afterWord s w) := by
  obtain ⟨t, -, -, ht, -⟩ := runCommand_effect w s
  rw [afterWord, ht]

theorem afterWord_taken (w : CommandWord) (s : State) (rest : List Input) :
    afterWord (taken s rest) w = taken (afterWord s w) rest := by
  rw [afterWord, runCommand_taken (runCommand_eq_afterWord w s) rest]

/-- A ready block with a ready transport takes the next command word and is after one step where the word leads, ready
again. -/
theorem step_command_unlimited {s : State} {w : CommandWord} {rest : List Input} (h : s.Inv) (hf : s.inFlight = none)
    (hc : s.txCredit = .unlimited) (hi : s.inputs = .command w :: rest) :
    step s = .next (afterWord (taken s rest) w) := by
  obtain ⟨t, bytes, r, hrun, ht⟩ := runCommand_effect w (taken s rest)
  have hdeliver : (taken s rest).deliver t = t := by
    refine deliver_unlimited (bytes := bytes) (r := r) ?_ ?_ ?_ ?_
    · rw [ht]
      exact hc
    · rw [ht]
    · rw [ht]
    · rw [ht]
      exact hf
  have hstep : step s = acceptCommand w (taken s rest) := by
    simp [step, (startOk_iff s).mpr h, takeInput_command hf hi, taken]
  rw [hstep, acceptCommand, afterWord, hrun]
  exact congrArg _ hdeliver

theorem afterWord_interface (s : State) (w : CommandWord) : (afterWord s w).inFlight = s.inFlight ∧
    (afterWord s w).txCredit = s.txCredit ∧ (afterWord s w).inputs = s.inputs := by
  obtain ⟨t, bytes, r, hrun, ht⟩ := runCommand_effect w s
  rw [afterWord, hrun]
  change t.inFlight = _ ∧ t.txCredit = _ ∧ t.inputs = _
  rw [ht]
  exact ⟨rfl, rfl, rfl⟩

/-- A run goes on from where its first step leads. -/
theorem run_succ {M : Host.Core} {n : Nat} {s t : M.State} (h : M.step s = .next t) : M.run (n + 1) s = M.run n t := by
  rw [Host.Core.run, h]

/-- Settles O15, by induction on the words presented: the first step runs the first of them, and the words that still
wait have no part in it (`afterWord_taken`). -/
theorem runIsTheFoldOfItsCommands : Obligations.RunIsTheFoldOfItsCommands := by
  intro s words h hf hc hi
  induction words generalizing s with
  | nil =>
    have hs : taken s [] = s := by rw [taken, ← List.map_nil, ← hi]
    exact congrArg Host.Outcome.next hs.symm
  | cons w words ih =>
    have hstep := step_command_unlimited h hf hc hi
    obtain ⟨hf', hc', hi'⟩ := afterWord_interface (taken s (words.map .command)) w
    calc Host.Core.run core (words.length + 1) s
      _ = Host.Core.run core words.length (afterWord (taken s (words.map .command)) w) := run_succ hstep
      _ = .next (words.foldl afterWord (taken (afterWord (taken s (words.map .command)) w) [])) :=
        ih _ (step_inv h hstep) (hf'.trans hf) (hc'.trans hc) hi'
      _ = .next (words.foldl afterWord (afterWord (taken s []) w)) := by
        rw [afterWord_taken, afterWord_taken]
        rfl

end Sys2Proof.Proofs
end

section
/-! Proofs for the memory and the output stream (spec/20_memory.md): a presented command through a step, what TX and
the wire keep, the order of the waiting commands, one stop of the transport, and the pitch-bend data bytes. -/

namespace Sys2Proof.Proofs

open Sys2Proof.Machine Sys2Proof.Claims

/-! ### A step that takes a given input -/

/-- A step of a ready block runs the command word presented next and delivers its effect (R42, R48). -/
theorem step_command {s : State} {w : CommandWord} {rest : List Input} (h : s.Inv) (hf : s.inFlight = none)
    (hi : s.inputs = .command w :: rest) :
    step s = .next ((taken s rest).deliver (afterWord (taken s rest) w)) := by
  have hstep : step s = acceptCommand w (taken s rest) := by
    simp [step, (startOk_iff s).mpr h, takeInput_command hf hi, taken]
  rw [hstep, acceptCommand, runCommand_eq_afterWord]

/-- A step, ready or not, takes a change of the transport's readiness that stands first (R40). -/
theorem step_transport {s : State} {credit : TxCredit} {rest : List Input} (h : s.Inv)
    (hi : s.inputs = .transport credit :: rest) : step s = .next ((taken s rest).offer credit) := by
  simp [step, (startOk_iff s).mpr h, hi, takeInput, taken]

theorem runCommand_of_decode {w : CommandWord} {i : Instr} (h : decode w = .ok i) (s : State) :
    runCommand w s = exec i s := by
  rw [runCommand, h]

/-- Settles O9: the state after the word is what `exec` answers, delivered by `step_command`, and already the delivered
state under an always ready transport (`step_command_unlimited`). -/
theorem stepRunsPresentedCommand : Obligations.StepRunsPresentedCommand := by
  intro s w rest i h hf hi hd
  refine ⟨afterWord (taken s rest) w, ?_, step_command h hf hi, fun hc => step_command_unlimited h hf hc hi⟩
  rw [← runCommand_of_decode hd, runCommand_eq_afterWord]

/-! ### TX only grows (R35) -/

/-- The second state has the bytes of the first on TX and perhaps more behind them, since the same reset. -/
structure OnlyAppends (s t : State) : Prop where
  txBefore : t.txBefore = s.txBefore
  tx : s.tx <+: t.tx

theorem OnlyAppends.wire_prefix {s t : State} (h : OnlyAppends s t) : s.wire <+: t.wire := by
  rw [State.wire, State.wire, h.txBefore]
  exact (List.prefix_append_right_inj _).mpr h.tx

theorem transmit_onlyAppends (s : State) (bytes : List Byte) (r : Response) :
    OnlyAppends s (s.transmit bytes r) := by
  obtain ⟨credit, h⟩ | ⟨n, -, -, h⟩ := transmit_cases s bytes r
  · rw [h]
    exact ⟨rfl, List.prefix_append _ _⟩
  · rw [h]
    exact ⟨rfl, List.prefix_append _ _⟩

theorem offer_onlyAppends (s : State) (credit : TxCredit) : OnlyAppends s (s.offer credit) := by
  unfold State.offer
  cases s.inFlight with
  | none => exact ⟨rfl, List.prefix_rfl⟩
  | some f =>
    obtain ⟨hbefore, htx⟩ := transmit_onlyAppends { s with txCredit := credit } f.rest f.response
    exact ⟨hbefore, htx⟩

/-- Delivery starts from the bytes that were on TX before the command. -/
theorem deliver_onlyAppends {s t : State} {w : CommandWord} (h : runCommand w s = .next t) :
    OnlyAppends s (s.deliver t) := by
  obtain ⟨u, bytes, r, hu, heq⟩ := runCommand_effect w s
  cases hu.symm.trans h
  have hbefore : t.txBefore = s.txBefore := by rw [heq]
  obtain ⟨hb, htx⟩ := transmit_onlyAppends { t with tx := s.tx, responses := s.responses }
    (t.tx.drop s.tx.length) (t.responses.getLastD Response.none)
  exact ⟨hb.trans hbefore, htx⟩

/-- Reset moves the bytes of TX to those before it, and the wire stays (R115). -/
theorem assertReset_wire (s : State) : s.assertReset.wire = s.wire := by
  simp [State.wire]

/-- Settles O25: every step but that of `rst` only appends to TX, and `rst` leaves the wire as it is. -/
theorem emittedBytesStay : Obligations.EmittedBytesStay := by
  intro s t h ht
  obtain ⟨-, hs⟩ | ⟨w, rest, u, -, hrun, hs⟩ | ⟨rest, hrst, hs⟩ | ⟨credit, rest, -, hs⟩ := step_cases h
  · rw [await_eq_next (hs.symm.trans ht)]
    exact ⟨List.prefix_rfl, fun _ => List.prefix_rfl⟩
  · cases hs.symm.trans ht
    have happ := deliver_onlyAppends hrun
    exact ⟨happ.wire_prefix, fun _ => happ.tx⟩
  · cases hs.symm.trans ht
    refine ⟨?_, fun hno => absurd hrst (hno rest)⟩
    rw [assertReset_wire]
    exact List.prefix_rfl
  · cases hs.symm.trans ht
    have happ := offer_onlyAppends { s with inputs := rest } credit
    exact ⟨happ.wire_prefix, fun _ => happ.tx⟩

/-! ### A command in flight (R48) -/

/-- Taking an input that is no command leaves every presented command waiting, in order. -/
theorem filter_isCommand_of_takeInput {ready : Bool} {inputs rest : List Input} {e : Input}
    (h : takeInput ready inputs = some (e, rest)) (he : isCommand e = false) :
    rest.filter isCommand = inputs.filter isCommand := by
  obtain ⟨before, after, rfl, rfl, -⟩ := takeInput_split h
  simp [he]

@[simp] theorem transmit_inputs (s : State) (bytes : List Byte) (r : Response) :
    (s.transmit bytes r).inputs = s.inputs := by
  obtain ⟨_, h⟩ | ⟨_, -, -, h⟩ := transmit_cases s bytes r <;> rw [h]

@[simp] theorem deliver_inputs (s t : State) : (s.deliver t).inputs = t.inputs := by
  simp [State.deliver]

@[simp] theorem offer_inputs (s : State) (credit : TxCredit) : (s.offer credit).inputs = s.inputs := by
  unfold State.offer
  cases s.inFlight with
  | none => rfl
  | some f => simp

/-- What serving a command in flight can do: give no response, or complete the command with its last byte. -/
theorem offer_outputs_of_inFlight {s : State} {f : InFlight} (hf : s.inFlight = some f) (credit : TxCredit) :
    (s.offer credit).responses = s.responses ∨
      ((s.offer credit).responses = s.responses ++ [f.response] ∧ (s.offer credit).tx = s.tx ++ f.rest ∧
        (s.offer credit).cmdReady = true) := by
  have hoffer : s.offer credit = { s with txCredit := credit }.transmit f.rest f.response := by
    rw [State.offer, hf]
  rw [hoffer]
  obtain ⟨_, h⟩ | ⟨_, -, -, h⟩ := transmit_cases { s with txCredit := credit } f.rest f.response
  · rw [h]
    exact .inr ⟨rfl, rfl, rfl⟩
  · rw [h]
    exact .inl rfl

/-- Settles O11: a busy block takes no command, `rst` gives no response, and the transport serves the command in
flight. -/
theorem noCommandAcceptedWhileInFlight : Obligations.NoCommandAcceptedWhileInFlight := by
  intro s t f h hf ht
  obtain ⟨-, hs⟩ | ⟨w, rest, u, hw, -, -⟩ | ⟨rest, hw, hs⟩ | ⟨credit, rest, hw, hs⟩ := step_cases h
  · rw [await_eq_next (hs.symm.trans ht)]
    exact ⟨rfl, .inl rfl⟩
  · have hbusy : s.cmdReady = false := (cmdReady_eq_false_iff s).mpr (by simp [hf])
    rw [hbusy] at hw
    exact absurd hw takeInput_busy_no_command
  · cases hs.symm.trans ht
    exact ⟨filter_isCommand_of_takeInput hw rfl, .inl rfl⟩
  · cases hs.symm.trans ht
    rw [offer_inputs]
    exact ⟨filter_isCommand_of_takeInput hw rfl, offer_outputs_of_inFlight (s := taken s rest) hf credit⟩

/-! ### One stop of the transport (R40) -/

/-- `s` in front of another outside world: other inputs to come and another readiness of the transport. -/
def facing (s : State) (inputs : List Input) (credit : TxCredit) : State :=
  { s with inputs := inputs, txCredit := credit }

/-- Neither what waits at the pins nor the transport has a part in a command's effect. -/
theorem exec_facing {i : Instr} {s t : State} (h : exec i s = .next t) (inputs : List Input) (credit : TxCredit) :
    exec i (facing s inputs credit) = .next (facing t inputs credit) := by
  obtain ⟨message, hi⟩ | ⟨answer, hi⟩ | rfl | ⟨raw, rfl⟩ := exec_shape i
  · cases (hi s).symm.trans h
    rw [hi, respond_sendMessage_eq_answered, respond_sendMessage_eq_answered]
    rfl
  · cases (hi s).symm.trans h
    rw [hi]
    rfl
  · cases h
    rfl
  · cases h
    change Host.Outcome.next (scanOnce (facing s inputs credit) raw) = .next (facing (scanOnce s raw) inputs credit)
    rw [scanOnce_eq_answered, scanOnce_eq_answered]
    rfl

theorem afterWord_facing (w : CommandWord) (s : State) (inputs : List Input) (credit : TxCredit) :
    afterWord (facing s inputs credit) w = facing (afterWord s w) inputs credit := by
  have h := runCommand_eq_afterWord w s
  have h' := runCommand_eq_afterWord w (facing s inputs credit)
  cases hd : decode w with
  | ok i =>
    rw [runCommand_of_decode hd] at h h'
    exact Host.Outcome.next.inj (h'.symm.trans (exec_facing h inputs credit))
  | error e => simp [afterWord, runCommand, hd, execIllegal, facing, State.respond]

theorem inv_facing {s : State} (h : s.Inv) (inputs : List Input) (credit : TxCredit) :
    (facing s inputs credit).Inv :=
  ⟨h.counterBelow, h.counterZero, h.flippedIdle, h.ceiling, h.inFlightLeft⟩

/-- A command word's effect on the outputs: bytes behind TX, and one response. -/
theorem afterWord_outputs (s : State) (w : CommandWord) : ∃ bytes r,
    (afterWord s w).tx = s.tx ++ bytes ∧ (afterWord s w).responses = s.responses ++ [r] := by
  obtain ⟨t, bytes, r, hrun, ht⟩ := runCommand_effect w s
  rw [afterWord, hrun]
  change ∃ bytes r, t.tx = _ ∧ t.responses = _
  rw [ht]
  exact ⟨bytes, r, rfl, rfl⟩

/-- Whatever part of a command's bytes the transport has accepted, once it accepts every byte the command's whole effect
is there: the bytes taken and those in flight are the command's bytes, each once and in order (R40). -/
theorem offer_unlimited_deliver {s t : State} {bytes : List Byte} {r : Response} (htx : t.tx = s.tx ++ bytes)
    (hr : t.responses = s.responses ++ [r]) (hf : t.inFlight = none) (rest : List Input) :
    (taken (s.deliver t) rest).offer .unlimited = facing t rest .unlimited := by
  have hdeliver : s.deliver t = { t with tx := s.tx, responses := s.responses }.transmit bytes r := by
    simp [State.deliver, htx, hr]
  obtain ⟨_, h⟩ | ⟨n, -, -, h⟩ := transmit_cases { t with tx := s.tx, responses := s.responses } bytes r
  · rw [hdeliver, h]
    simp [taken, State.offer, facing, htx, hr, hf]
  · rw [hdeliver, h]
    simp [taken, State.offer, State.transmit, facing, htx, hr, hf]

/-- Settles O14: the command's effect, delivered in part and then served whole, is the effect in front of the always
ready transport (`offer_unlimited_deliver`, `afterWord_facing`). -/
theorem backPressureOnlyDelays : Obligations.BackPressureOnlyDelays := by
  intro s w rest k h hf hi _
  have hstep := step_command h hf hi
  obtain ⟨bytes, r, htx, hr⟩ := afterWord_outputs (taken s (.transport .unlimited :: rest)) w
  obtain ⟨hf', -, hi'⟩ := afterWord_interface (taken s (.transport .unlimited :: rest)) w
  refine ⟨_, facing (afterWord (taken s (.transport .unlimited :: rest)) w) rest .unlimited, hstep, ?_, ?_⟩
  · rw [step_transport (step_inv h hstep) ((deliver_inputs _ _).trans hi'),
      offer_unlimited_deliver htx hr (hf'.trans hf)]
  · rw [← afterWord_facing]
    exact step_command_unlimited (inv_facing h _ _) hf rfl rfl

/-! ### The pitch-bend data bytes (R38, R87) -/

/-- A data byte carries the low seven bits of its value (R76). -/
theorem dataByte_toNat (v : Nat) : (dataByte v).toNat = v % 128 := by
  have hmask : v &&& 0x7F = v % 128 := Nat.and_two_pow_sub_one_eq_mod v 7
  rw [dataByte, hmask, BitVec.toNat_ofNat]
  omega

/-- Two data bytes, the low seven bits first, carry a 14-bit value. -/
theorem dataByte_pair {u : Nat} (h : u < 16384) :
    (dataByte u).toNat + 128 * (dataByte (u >>> 7)).toNat = u := by
  rw [dataByte_toNat, dataByte_toNat, Nat.shiftRight_eq_div_pow]
  omega

theorem pitchBendMessage_of_inRange {ch : Byte} {v : Int} (hch : ChannelInRange ch) (hlow : -8192 ≤ v)
    (hhigh : v ≤ 8191) : pitchBendMessage ch v = some [statusByte opcPitchBend ch, dataByte (v + 8192).toNat,
      dataByte ((v + 8192).toNat >>> 7)] := by
  have hchannel : channelOk ch = true := by simpa [channelOk, ChannelInRange] using hch
  have hpitch : pitchOk v = true := by simp [pitchOk, hlow, hhigh]
  simp [pitchBendMessage, hchannel, hpitch]

/-- Settles O47: the message is the status byte and the two data bytes of the 14-bit value v + 8192. -/
theorem pitchBendBytesGiveTheValueBack : Obligations.PitchBendBytesGiveTheValueBack := by
  intro ch v s hinit hch hlow hhigh
  refine ⟨_, statusByte opcPitchBend ch, dataByte (v + 8192).toNat, dataByte ((v + 8192).toNat >>> 7), rfl, ?_, ?_⟩
  · rw [respond_sendMessage_eq_answered, pitchBendMessage_of_inRange hch hlow hhigh, hinit]
    rfl
  · have hpair := dataByte_pair (u := (v + 8192).toNat) (by omega)
    omega

end Sys2Proof.Proofs
end

section
/-! Proofs for the encoding (spec/30_encoding.md): the rows of the opcode map, both round trips of the decoder and the
encoder, the ignored bits, and the words written out in the spec. -/

namespace Sys2Proof.Proofs

open Sys2Proof.Machine Sys2Proof.Claims Sys2Proof.Laws

/-! ### The ranges of the fields (R51) -/

theorem pitchFits_iff {value : Int} : pitchFits value = true ↔ -32768 ≤ value ∧ value ≤ 32767 := by
  simp [pitchFits]

theorem listFits_iff {bytes : List Byte} : listFits bytes = true ↔ bytes.length ≤ 7 := by
  simp [listFits]

/-! ### The rows of the opcode map (R51, R52) -/

/-- The row of the opcode map that a word belongs to, each operand read from its field. -/
inductive Reads (w : CommandWord) : Instr → Prop where
  | noteOn (op : opField w = 0x01#8) : Reads w (.noteOn (fieldA w) (fieldB w) (fieldC w))
  | noteOff (op : opField w = 0x02#8) : Reads w (.noteOff (fieldA w) (fieldB w) (fieldC w))
  | controlChange (op : opField w = 0x03#8) : Reads w (.controlChange (fieldA w) (fieldB w) (fieldC w))
  | programChange (op : opField w = 0x04#8) : Reads w (.programChange (fieldA w) (fieldB w))
  | pitchBend (op : opField w = 0x05#8) : Reads w (.pitchBend (fieldA w) (fieldV w))
  | allNotesOff (op : opField w = 0x06#8) : Reads w (.allNotesOff (fieldA w))
  | sendRaw (op : opField w = 0x07#8) : Reads w (.sendRaw (fieldList w))
  | midiInit (op : opField w = 0x08#8) : Reads w .midiInit
  | scanCycle (op : opField w = 0x10#8) : Reads w (.scanCycle (fieldR w))
  | noteName (op : opField w = 0x20#8) : Reads w (.noteName (fieldList w))
  | noteFreq (op : opField w = 0x21#8) : Reads w (.noteFreq (fieldC w))

theorem Reads.opField_eq {w : CommandWord} {i : Instr} (h : Reads w i) : opField w = i.opcode := by
  cases h <;> assumption

/-- The decoder answers exactly the row of the word. -/
theorem decode_eq_ok_iff {w : CommandWord} {i : Instr} : decode w = .ok i ↔ Reads w i := by
  constructor
  · intro h
    unfold decode at h
    split at h <;> cases h
    next op => exact .noteOn (BitVec.eq_of_toNat_eq op)
    next op => exact .noteOff (BitVec.eq_of_toNat_eq op)
    next op => exact .controlChange (BitVec.eq_of_toNat_eq op)
    next op => exact .programChange (BitVec.eq_of_toNat_eq op)
    next op => exact .pitchBend (BitVec.eq_of_toNat_eq op)
    next op => exact .allNotesOff (BitVec.eq_of_toNat_eq op)
    next op => exact .sendRaw (BitVec.eq_of_toNat_eq op)
    next op => exact .midiInit (BitVec.eq_of_toNat_eq op)
    next op => exact .scanCycle (BitVec.eq_of_toNat_eq op)
    next op => exact .noteName (BitVec.eq_of_toNat_eq op)
    next op => exact .noteFreq (BitVec.eq_of_toNat_eq op)
  · intro h
    have op := h.opField_eq
    cases h <;> (rw [decode, op]; rfl)

/-- The decoder refuses exactly the words with a listed opcode (R53). -/
theorem illegal_iff_refused (w : CommandWord) : IllegalOpcode (opField w).toNat ↔ ∃ e, decode w = .error e := by
  have hbyte := (opField w).isLt
  unfold decode
  split
  case h_12 =>
    simp only [IllegalOpcode, Except.error.injEq, exists_eq', iff_true, imp_false] at *
    omega
  all_goals
    simp only [reduceCtorEq, exists_false, iff_false, IllegalOpcode]
    omega

/-- Settles O2: each clause is a row of the opcode map; V is two's complement, and a list has LEN bytes. -/
theorem opcodeSelectsAndFieldsAreRead : Obligations.OpcodeSelectsAndFieldsAreRead := by
  intro w
  have list : (fieldList w).length = fieldLen w ∧
      ∀ k (h : k < (fieldList w).length), (fieldList w)[k] = fieldByte w k := by simp [fieldList]
  have signed : fieldV w = if w.getLsbD 15 then ((w.extractLsb' 0 16).toNat : Int) - 65536
      else (w.extractLsb' 0 16).toNat := by
    have hmsb : (w.extractLsb' 0 16).msb = w.getLsbD 15 := by simp [BitVec.msb_eq_getLsbD_last]
    rw [fieldV, BitVec.toInt_eq_msb_cond, hmsb]
    rfl
  exact ⟨fun op => decode_eq_ok_iff.mpr (.noteOn op), fun op => decode_eq_ok_iff.mpr (.noteOff op),
    fun op => decode_eq_ok_iff.mpr (.controlChange op), fun op => decode_eq_ok_iff.mpr (.programChange op),
    fun op => ⟨_, decode_eq_ok_iff.mpr (.pitchBend op), signed⟩, fun op => decode_eq_ok_iff.mpr (.allNotesOff op),
    fun op => ⟨_, decode_eq_ok_iff.mpr (.sendRaw op), list⟩, fun op => decode_eq_ok_iff.mpr (.midiInit op),
    fun op => decode_eq_ok_iff.mpr (.scanCycle op), fun op => ⟨_, decode_eq_ok_iff.mpr (.noteName op), list⟩,
    fun op => decode_eq_ok_iff.mpr (.noteFreq op)⟩

/-! ### Decoding an encoded command -/

theorem opField_encode (i : Instr) : opField (encode i) = i.opcode := opField_append _ _

/-- Settles O3: the word carries the command's OP, so its row is the command's, with the fields read back from each
format. -/
theorem decodeOfEncodeIsIdentity : Obligations.DecodeOfEncodeIsIdentity := by
  intro i hi
  rw [decode, opField_encode]
  cases i with
  | pitchBend ch value => simp [encode, Instr.data, Instr.opcode, fieldA_dataPB, fieldV_dataPB _ _ _ hi]
  | sendRaw bytes => simp [encode, Instr.data, Instr.opcode, fieldList_dataList _ _ hi]
  | noteName bytes => simp [encode, Instr.data, Instr.opcode, fieldList_dataList _ _ hi]
  | _ => simp [encode, Instr.data, Instr.opcode, fieldA_dataABC, fieldB_dataABC, fieldC_dataABC, fieldR_append]

theorem encode_injective {i j : Instr} (hi : i.WellFormed) (hj : j.WellFormed) (h : encode i = encode j) : i = j := by
  have hdecode := decodeOfEncodeIsIdentity i hi
  rw [h, decodeOfEncodeIsIdentity j hj] at hdecode
  exact (Except.ok.inj hdecode).symm

/-! ### Encoding a decoded word (R50, R54) -/

theorem opField_append_fieldR (w : CommandWord) : opField w ++ fieldR w = w :=
  BitVec.extractLsb'_append_extractLsb' (w := 8) (len := 64)

/-- The bits of `DATA` that format F_LIST reads with a list of the given length: LEN, and the bytes below it (R50). -/
def listMask (len : Nat) : Word64 := 7#64 <<< 56 ||| BitVec.ofNat 64 (2 ^ (8 * len) - 1)

/-- The bits of `DATA` that the format of a command reads (R50): `usedBits` without OP, by `Reads.usedBits_eq`. -/
def dataMask : Instr → Word64
  | .noteOn _ _ _ => dataABC 0xFF#8 0xFF#8 0xFF#8
  | .noteOff _ _ _ => dataABC 0xFF#8 0xFF#8 0xFF#8
  | .controlChange _ _ _ => dataABC 0xFF#8 0xFF#8 0xFF#8
  | .programChange _ _ => dataABC 0xFF#8 0xFF#8 0#8
  | .pitchBend _ _ => dataABC 0xFF#8 0xFF#8 0xFF#8
  | .allNotesOff _ => dataABC 0xFF#8 0#8 0#8
  | .sendRaw bytes => listMask bytes.length
  | .midiInit => 0#64
  | .scanCycle _ => BitVec.allOnes 64
  | .noteName chars => listMask chars.length
  | .noteFreq _ => dataABC 0#8 0#8 0xFF#8

theorem fieldLen_le (w : CommandWord) : fieldLen w ≤ 7 := by
  have h := (w.extractLsb' 56 3).isLt
  rw [fieldLen]
  omega

@[simp] theorem length_fieldList (w : CommandWord) : (fieldList w).length = fieldLen w := by
  simp [fieldList]

theorem Reads.wellFormed {w : CommandWord} {i : Instr} (h : Reads w i) : i.WellFormed := by
  cases h with
  | pitchBend _ =>
    have hlow := BitVec.le_toInt (w.extractLsb' 0 16)
    have hhigh := BitVec.toInt_lt (x := w.extractLsb' 0 16)
    exact pitchFits_iff.mpr ⟨hlow, Int.le_of_lt_add_one hhigh⟩
  | sendRaw _ => exact listFits_iff.mpr (length_fieldList w ▸ fieldLen_le w)
  | noteName _ => exact listFits_iff.mpr (length_fieldList w ▸ fieldLen_le w)
  | _ => rfl

/-- The bits that a word's format reads are OP and the bits of `DATA` that its command's format reads. -/
theorem Reads.usedBits_eq {w : CommandWord} {i : Instr} (h : Reads w i) : usedBits w = 0xFF#8 ++ dataMask i := by
  have hop := h.opField_eq
  have list : ∀ len < 8, 0xFF_0000000000000000#72 |||
      (0x00_0700000000000000#72 ||| BitVec.ofNat 72 (2 ^ (8 * len) - 1)) = 0xFF#8 ++ listMask len := by decide
  rw [opField] at hop
  rw [usedBits, hop]
  cases h with
  | sendRaw _ =>
    rw [dataMask, length_fieldList]
    exact list _ (Nat.lt_succ_of_le (fieldLen_le w))
  | noteName _ =>
    rw [dataMask, length_fieldList]
    exact list _ (Nat.lt_succ_of_le (fieldLen_le w))
  | _ => rfl

/-- The fields A, B and C stand side by side (R51). -/
theorem append_fields (w : CommandWord) : fieldA w ++ fieldB w ++ fieldC w = w.extractLsb' 0 24 := by
  have high : fieldA w ++ fieldB w = w.extractLsb' 8 16 := BitVec.extractLsb'_append_extractLsb'_eq_extractLsb' rfl
  rw [high]
  exact BitVec.extractLsb'_append_extractLsb'_eq_extractLsb' rfl

/-- The bits of `DATA` under a mask of one field are that field under the mask, in its place. -/
theorem fieldR_and_field (w : CommandWord) (k : Nat) {n : Nat} (m : BitVec n) :
    fieldR w &&& m.setWidth 64 <<< k = (w.extractLsb' k n &&& m).setWidth 64 <<< k := by
  apply BitVec.eq_of_getLsbD_eq
  intro j hj
  by_cases hk : j < k
  · simp [hk]
  · by_cases hn : j - k < n
    · have hplace : k + (j - k) = j := by omega
      simp [fieldR, hj, hk, hn, hplace]
    · simp [hk, hn, BitVec.getLsbD_of_ge m (j - k) (by omega)]

theorem fieldR_and_dataABC (w : CommandWord) (x y z : Byte) :
    fieldR w &&& dataABC x y z = dataABC (fieldA w &&& x) (fieldB w &&& y) (fieldC w &&& z) := by
  have h := fieldR_and_field w 0 (x ++ y ++ z)
  rwa [← append_fields, BitVec.and_append, BitVec.and_append, BitVec.shiftLeft_zero, BitVec.shiftLeft_zero] at h

theorem dataPB_fields (w : CommandWord) : dataPB (fieldA w) (fieldV w) = dataABC (fieldA w) (fieldB w) (fieldC w) := by
  have hV : fieldA w ++ w.extractLsb' 0 16 = w.extractLsb' 0 24 :=
    BitVec.extractLsb'_append_extractLsb'_eq_extractLsb' rfl
  rw [dataPB, dataABC, fieldV, BitVec.ofInt_toInt, hV, append_fields]

theorem getLsbD_fieldByte (w : CommandWord) (j : Nat) : (fieldByte w (j / 8)).getLsbD (j % 8) = w.getLsbD j := by
  have hmod : j % 8 < 8 := Nat.mod_lt _ (by decide)
  simp [fieldByte, hmod, Nat.div_add_mod]

/-- LEN in its place, from the length of the list read. -/
theorem len_eq_fieldR_and (w : CommandWord) :
    (BitVec.ofNat 3 (fieldLen w)).setWidth 64 <<< 56 = fieldR w &&& 7#64 <<< 56 := by
  have h := fieldR_and_field w 56 (BitVec.allOnes 3)
  rw [fieldLen, BitVec.ofNat_toNat, BitVec.setWidth_eq]
  rw [BitVec.and_allOnes] at h
  exact h.symm

/-- The list bytes in their places are the bytes below LEN. -/
theorem packBytes_fieldList (w : CommandWord) :
    packBytes (fieldList w) = fieldR w &&& BitVec.ofNat 64 (2 ^ (8 * fieldLen w) - 1) := by
  apply BitVec.eq_of_getLsbD_eq
  intro j hj
  rw [getLsbD_packBytes _ _ hj, BitVec.getLsbD_and, BitVec.getLsbD_ofNat, Nat.testBit_two_pow_sub_one]
  by_cases h : j < 8 * fieldLen w
  · have hk : j / 8 < fieldLen w := by omega
    simp [fieldList, fieldR, hj, h, hk, getLsbD_fieldByte]
  · have hk : ¬ j / 8 < fieldLen w := by omega
    simp [fieldList, h, hk]

theorem dataList_fieldList (w : CommandWord) : dataList (fieldList w) = fieldR w &&& listMask (fieldLen w) := by
  rw [dataList, listMask, length_fieldList, len_eq_fieldR_and, packBytes_fieldList, BitVec.and_or_distrib_left]

theorem byte_and_ones (b : Byte) : b &&& 0xFF#8 = b := BitVec.and_allOnes

/-- The operand field of the command read from a word is the word's, less the bits the format does not read. -/
theorem Reads.data_eq {w : CommandWord} {i : Instr} (h : Reads w i) : i.data = fieldR w &&& dataMask i := by
  cases h with
  | pitchBend _ => simp [Instr.data, dataMask, dataPB_fields, fieldR_and_dataABC, byte_and_ones]
  | sendRaw _ => simp [Instr.data, dataMask, dataList_fieldList]
  | noteName _ => simp [Instr.data, dataMask, dataList_fieldList]
  | scanCycle _ => exact BitVec.and_allOnes.symm
  | _ => simp [Instr.data, dataMask, fieldR_and_dataABC, byte_and_ones]

/-- Settles O4: OP over the operand field, each with the bits that the format reads. -/
theorem encodeOfDecodeClearsIgnoredBits : Obligations.EncodeOfDecodeClearsIgnoredBits := by
  intro w i h
  have hrow := decode_eq_ok_iff.mp h
  refine ⟨hrow.wellFormed, ?_⟩
  calc encode i
    _ = (opField w &&& 0xFF#8) ++ (fieldR w &&& dataMask i) := by
      rw [encode, hrow.data_eq, ← hrow.opField_eq, byte_and_ones]
    _ = (opField w ++ fieldR w) &&& (0xFF#8 ++ dataMask i) := BitVec.and_append.symm
    _ = w &&& usedBits w := by rw [opField_append_fieldR, hrow.usedBits_eq]

/-! ### Ignored bits (R54) -/

theorem opField_usedBits (w : CommandWord) : opField (usedBits w) = BitVec.allOnes 8 := by
  rw [opField, usedBits, BitVec.extractLsb'_or]
  exact BitVec.allOnes_or

theorem len_usedBits {w : CommandWord} (h : opField w = 0x07#8 ∨ opField w = 0x20#8) :
    (usedBits w).extractLsb' 56 3 = BitVec.allOnes 3 := by
  unfold opField at h
  have list (m : CommandWord) : (0xFF_0000000000000000#72 ||| (0x00_0700000000000000#72 ||| m)).extractLsb' 56 3
      = BitVec.allOnes 3 := by
    rw [← BitVec.or_assoc, BitVec.extractLsb'_or]
    exact BitVec.allOnes_or
  obtain op | op := h
  · rw [usedBits, op]
    exact list _
  · rw [usedBits, op]
    exact list _

/-- A field that the format of one of two words reads is the same in both, if they agree on the bits it reads. -/
theorem extract_eq_of_agree {w w' : CommandWord} {k n : Nat} (h : w' &&& usedBits w = w &&& usedBits w)
    (hones : (usedBits w).extractLsb' k n = BitVec.allOnes n) : w'.extractLsb' k n = w.extractLsb' k n := by
  have hfield := congrArg (BitVec.extractLsb' k n) h
  rwa [BitVec.extractLsb'_and, BitVec.extractLsb'_and, hones, BitVec.and_allOnes, BitVec.and_allOnes] at hfield

/-- Words that agree on the bits that the format of one of them reads have the same format. -/
theorem usedBits_eq_of_agree {w w' : CommandWord} (h : w' &&& usedBits w = w &&& usedBits w) :
    usedBits w' = usedBits w := by
  have hlen (hlist : opField w = 0x07#8 ∨ opField w = 0x20#8) := extract_eq_of_agree h (len_usedBits hlist)
  have hop := extract_eq_of_agree h (opField_usedBits w)
  rw [usedBits, usedBits, hop]
  split
  case h_7 op => rw [hlen (.inl (BitVec.eq_of_toNat_eq op))]
  case h_9 op => rw [hlen (.inr (BitVec.eq_of_toNat_eq op))]
  all_goals rfl

/-- Settles O5: the same OP makes both words legal or both illegal, and legal ones have the same encoding. -/
theorem ignoredBitsChangeNothing : Obligations.IgnoredBitsChangeNothing := by
  intro w w' s h
  have hop : opField w' = opField w := extract_eq_of_agree h (opField_usedBits w)
  cases hd : decode w with
  | error e =>
    obtain ⟨e', hd'⟩ := (illegal_iff_refused w').mp (hop ▸ (illegal_iff_refused w).mpr ⟨e, hd⟩)
    rw [runCommand, runCommand, hd, hd']
  | ok i =>
    cases hd' : decode w' with
    | error e =>
      obtain ⟨e', hd''⟩ := (illegal_iff_refused w).mp (hop ▸ (illegal_iff_refused w').mpr ⟨e, hd'⟩)
      cases hd.symm.trans hd''
    | ok i' =>
      obtain ⟨hi, henc⟩ := encodeOfDecodeClearsIgnoredBits w i hd
      obtain ⟨hi', henc'⟩ := encodeOfDecodeClearsIgnoredBits w' i' hd'
      have heq : i' = i := encode_injective hi' hi (by rw [henc', henc, usedBits_eq_of_agree h, h])
      rw [runCommand_of_decode hd, runCommand_of_decode hd', heq]

/-! ### Illegal commands (R53) -/

/-- An effect without bytes is delivered whole whatever the transport does: the command completes at once (R48). -/
theorem deliver_respond {s : State} (hf : s.inFlight = none) (r : Response) :
    s.deliver (s.respond r) = answered s [] r := by
  obtain ⟨raw, stable, prev, cnt, init, tx, txBefore, responses, inFlight, inputs, txCredit, cfg⟩ := s
  cases hf
  cases txCredit <;> simp [State.deliver, State.respond, State.transmit, answered]

/-- Settles O6: the words that the decoder refuses, and a presented illegal word through `step_command`. -/
theorem illegalCommandIsSilentNoOp : Obligations.IllegalCommandIsSilentNoOp := by
  refine ⟨illegal_iff_refused, fun s w rest h hf hi hw => ?_⟩
  obtain ⟨e, hd⟩ := (illegal_iff_refused w).mp hw
  have hafter : afterWord (taken s rest) w = (taken s rest).respond noResult := by
    rw [afterWord, runCommand, hd]
    rfl
  rw [step_command h hf hi, hafter, deliver_respond (s := taken s rest) hf]

/-! ### Words and lines written out in 95_test_vectors.md -/

/-- Settles O1, by running the decoder. -/
theorem writtenWordsDecode : Obligations.WrittenWordsDecode := by
  unfold Obligations.WrittenWordsDecode
  decide

/-- Settles O8, by running the assembler. -/
theorem writtenLinesAssemble : Obligations.WrittenLinesAssemble := by
  unfold Obligations.WrittenLinesAssemble
  decide +kernel

end Sys2Proof.Proofs
end

section
/-! Proofs for the handshake and the responses (spec/30_encoding.md R48, R55): the block while it can take nothing, and
the one response of each command. -/

namespace Sys2Proof.Proofs

open Sys2Proof.Machine Sys2Proof.Claims

/-! ### Waiting (R111, R112) -/

/-- A busy block takes an input that is no command from behind the waiting commands (log 19). -/
theorem takeInput_behind_commands {waiting : List Input} {e : Input} (hw : ∀ x ∈ waiting, isCommand x = true)
    (he : isCommand e = false) : takeInput false (waiting ++ [e]) = some (e, waiting) := by
  induction waiting with
  | nil =>
    cases e with
    | command w => simp [isCommand] at he
    | rst => rfl
    | transport credit => rfl
  | cons x xs ih =>
    obtain ⟨hx, hxs⟩ := List.forall_mem_cons.mp hw
    obtain ⟨w, rfl⟩ := (isCommand_iff x).mp hx
    simp [takeInput, ih hxs]

/-- A step, ready or not, that takes a change of the transport's readiness serves it (R40). -/
theorem step_of_takeInput_transport {s : State} {credit : TxCredit} {rest : List Input} (h : s.Inv)
    (ht : takeInput s.cmdReady s.inputs = some (.transport credit, rest)) :
    step s = .next ((taken s rest).offer credit) := by
  simp [step, (startOk_iff s).mpr h, ht, taken]

/-- Settles O10: no input to take when ready (`step_cases`), the stall of `step_eq_transportStall_iff` when busy, and
the input behind the waiting commands that ends it. -/
theorem blockHoldsWhileNothingCanBeTaken : Obligations.BlockHoldsWhileNothingCanBeTaken := by
  intro s h
  refine ⟨fun hf hi => ?_, fun f hf hw => ?_⟩
  · have hready : s.cmdReady = true := by simp [State.cmdReady, hf]
    refine ⟨hready, ?_⟩
    simp [step, (startOk_iff s).mpr h, hi, takeInput, hready]
  · have hsome : s.inFlight ≠ none := by simp [hf]
    have hbusy : s.cmdReady = false := (cmdReady_eq_false_iff s).mpr hsome
    have behind (e : Input) (he : isCommand e = false) :
        takeInput (taken s (s.inputs ++ [e])).cmdReady (s.inputs ++ [e]) = some (e, s.inputs) := by
      rw [show (taken s (s.inputs ++ [e])).cmdReady = false from hbusy, takeInput_behind_commands hw he]
    refine ⟨hbusy, (step_eq_transportStall_iff h).mpr ⟨hsome, hw⟩, fun credit => ?_, ?_⟩
    · exact step_of_takeInput_transport (taken_inv h _) (behind _ rfl)
    · exact step_rst (taken_inv h _) (behind _ rfl)

/-! ### Responses (R55) -/

@[simp] theorem sendMessage_responses (s : State) (message : Option (List Byte)) :
    (s.sendMessage message).responses = s.responses := by
  rw [sendMessage_eq]

@[simp] theorem sendBytes_responses (s : State) (bytes : List Byte) : (s.sendBytes bytes).responses = s.responses := by
  rw [sendBytes_eq]

@[simp] theorem keyEvents_responses (s : State) : s.keyEvents.responses = s.responses := by
  rw [keyEvents_eq]

@[simp] theorem scanRegisters_responses (s : State) (r : Bitmap) : (s.scanRegisters r).responses = s.responses := rfl

/-- The response of a command: the two conversions answer, every other command has no result. -/
def responseOf (s : State) : Instr → Response
  | .noteName chars => .value ((noteNameToNumber chars).setWidth 64)
  | .noteFreq note => freqResponse s.cfg.setup.freqFn note s.freeResult
  | _ => Response.none

theorem exec_responses (i : Instr) (s : State) :
    ∃ t, exec i s = .next t ∧ t.responses = s.responses ++ [responseOf s i] := by
  cases i <;> exact ⟨_, rfl, by simp [responseOf]⟩

theorem freqResponse_hasResult (freqFn : Vector Word64 128) (note : Byte) (unstated : Word64) :
    (freqResponse freqFn note unstated).hasResult = true ↔ note.toNat ≤ 127 := by
  rw [← Nat.lt_succ_iff]
  by_cases h : note.toNat < 128
  · simp [freqResponse, h, Response.value]
  · simp [freqResponse, h, Response.unstated]

/-- Settles O21: one response more (`exec_responses`), read off by command. -/
theorem everyCommandRespondsOnce : Obligations.EveryCommandRespondsOnce := by
  intro i s
  obtain ⟨t, ht, hr⟩ := exec_responses i s
  refine ⟨t, responseOf s i, ht, hr, ?_⟩
  cases i with
  | noteName chars => simp [responseOf, Response.value]
  | noteFreq note => simp [responseOf, freqResponse_hasResult]
  | _ => simp [responseOf, Response.none]

end Sys2Proof.Proofs
end

section
/-! Proofs for the assembler (spec/30_encoding.md R57, R58): each kind of operand, the rows of the mnemonics, and the
word of a line. -/

namespace Sys2Proof.Proofs

open Sys2Proof.Machine Sys2Proof.Claims

/-! ### Operands -/

/-- An unsigned operand is accepted exactly if it is the value of its field. -/
theorem wideOperand_eq_some {w : Nat} {v : Int} {b : BitVec w} : wideOperand w v = some b ↔ v = b.toNat := by
  constructor
  · intro h
    simp only [wideOperand, Option.ite_none_right_eq_some, Option.some.injEq] at h
    obtain ⟨⟨hlow, hhigh⟩, rfl⟩ := h
    have hmod : v % (2 : Int) ^ w = v := Int.emod_eq_of_lt hlow hhigh
    simp [BitVec.toNat_ofInt, hmod, hlow]
  · rintro rfl
    have hb : ((b.toNat : Int)) < 2 ^ w := by exact_mod_cast b.isLt
    simp [wideOperand, hb]

theorem byteOperand_eq_some {v : Int} {b : Byte} : byteOperand v = some b ↔ v = b.toNat := by
  have hrange : v ≤ 255 ↔ v < 2 ^ 8 := by omega
  simp only [← wideOperand_eq_some, byteOperand, wideOperand, hrange]

@[simp] theorem byteOperand_toNat (b : Byte) : byteOperand b.toNat = some b := byteOperand_eq_some.mpr rfl

@[simp] theorem wideOperand_toNat {w : Nat} (b : BitVec w) : wideOperand w b.toNat = some b :=
  wideOperand_eq_some.mpr rfl

@[simp] theorem operandTokens_nil : operandTokens [] = [] := rfl

@[simp] theorem operandTokens_singleton (v : Int) : operandTokens [v] = [.int v] := rfl

@[simp] theorem operandTokens_cons_cons (v v' : Int) (vs : List Int) :
    operandTokens (v :: v' :: vs) = .int v :: .comma :: operandTokens (v' :: vs) := by
  simp [operandTokens]

theorem threeBytes_eq_some {make : Byte → Byte → Byte → Instr} {operands : List Token} {i : Instr} :
    threeBytes make operands = some i ↔
      ∃ a b c : Byte, operands = operandTokens [a.toNat, b.toNat, c.toNat] ∧ make a b c = i := by
  constructor
  · intro h
    unfold threeBytes at h
    split at h
    · simp only [Option.bind_eq_bind, Option.bind_eq_some_iff, byteOperand_eq_some, Option.pure_def,
        Option.some.injEq] at h
      obtain ⟨a, rfl, b, rfl, c, rfl, hmake⟩ := h
      exact ⟨a, b, c, rfl, hmake⟩
    · cases h
  · rintro ⟨a, b, c, rfl, rfl⟩
    simp [threeBytes]

/-- The tokens behind the opening bracket of a list of bytes. -/
def listTokens (bytes : List Byte) : List Token :=
  operandTokens (bytes.map fun b => (b.toNat : Int)) ++ [.closeBracket]

theorem listTokens_cons_cons (b b' : Byte) (bs : List Byte) :
    listTokens (b :: b' :: bs) = .int b.toNat :: .comma :: listTokens (b' :: bs) := by
  simp [listTokens]

theorem listOperand_listTokens (bytes : List Byte) : listOperand (listTokens bytes) = some bytes := by
  induction bytes with
  | nil => rfl
  | cons b bs ih =>
    cases bs with
    | nil => simp [listTokens, listOperand]
    | cons b' bs => simp [listTokens_cons_cons, listOperand, ih]

theorem eq_listTokens_of_listOperand {operands : List Token} {bytes : List Byte}
    (h : listOperand operands = some bytes) : operands = listTokens bytes := by
  induction operands using listOperand.induct generalizing bytes with
  | case1 =>
    cases h
    rfl
  | case2 v =>
    obtain ⟨b, hb, rfl⟩ := Option.map_eq_some_iff.mp h
    rw [byteOperand_eq_some.mp hb]
    rfl
  | case3 v rest ih =>
    rw [listOperand] at h
    obtain ⟨b, hb, h⟩ := Option.bind_eq_some_iff.mp h
    obtain ⟨more, hmore, h⟩ := Option.bind_eq_some_iff.mp h
    rw [byteOperand_eq_some.mp hb, ih hmore]
    cases more with
    | nil => cases h
    | cons b' more =>
      cases h
      rw [listTokens_cons_cons]
  | case4 operands hempty hlast hcons =>
    rw [listOperand.eq_4 operands hempty hlast hcons] at h
    cases h

/-- The bytes between the brackets are accepted exactly if they stand with commas between them and the closing bracket
behind the last. -/
theorem listOperand_eq_some {operands : List Token} {bytes : List Byte} :
    listOperand operands = some bytes ↔ operands = listTokens bytes :=
  ⟨eq_listTokens_of_listOperand, fun h => h ▸ listOperand_listTokens bytes⟩

/-- A quoted name is accepted exactly if its characters are ASCII; its bytes are their codes. -/
theorem asciiOperand_eq_some {chars : List Char} {bytes : List Byte} : asciiOperand chars = some bytes ↔
    (∀ c ∈ chars, c.toNat < 128) ∧ chars.map (fun c => BitVec.ofNat 8 c.toNat) = bytes := by
  induction chars generalizing bytes with
  | nil => simp [asciiOperand]
  | cons c cs ih =>
    by_cases hc : c.toNat < 128
    · simp [asciiOperand, hc, ih, and_assoc]
    · simp [asciiOperand, hc]

/-! ### The rows of the mnemonics -/

theorem assemblesTo_of_assembleOperands {mnemonic : String} {operands : List Token} {i : Instr}
    (h : assembleOperands mnemonic operands = some i) : AssemblesTo mnemonic operands i := by
  unfold assembleOperands at h
  split at h
  · obtain ⟨ch, note, vel, rfl, rfl⟩ := threeBytes_eq_some.mp h
    exact .noteOn ch note vel
  · obtain ⟨ch, note, vel, rfl, rfl⟩ := threeBytes_eq_some.mp h
    exact .noteOff ch note vel
  · obtain ⟨ch, ctl, val, rfl, rfl⟩ := threeBytes_eq_some.mp h
    exact .controlChange ch ctl val
  · obtain ⟨ch, hch, h⟩ := Option.bind_eq_some_iff.mp h
    obtain ⟨prog, hprog, hi⟩ := Option.bind_eq_some_iff.mp h
    rw [byteOperand_eq_some] at hch hprog
    cases hi
    exact hch ▸ hprog ▸ .programChange ch prog
  · obtain ⟨ch, hch, h⟩ := Option.bind_eq_some_iff.mp h
    obtain ⟨hfits, hi⟩ := Option.ite_none_right_eq_some.mp h
    obtain ⟨low, high⟩ := pitchFits_iff.mp hfits
    rw [byteOperand_eq_some] at hch
    cases hi
    exact hch ▸ .pitchBend ch _ low high
  · obtain ⟨ch, hch, rfl⟩ := Option.map_eq_some_iff.mp h
    exact byteOperand_eq_some.mp hch ▸ .allNotesOff ch
  · obtain ⟨bytes, hbytes, h⟩ := Option.bind_eq_some_iff.mp h
    obtain ⟨hfits, hi⟩ := Option.ite_none_right_eq_some.mp h
    cases hi
    exact listOperand_eq_some.mp hbytes ▸ .sendRaw bytes (listFits_iff.mp hfits)
  · cases h
    exact .midiInit
  · obtain ⟨raw, hraw, rfl⟩ := Option.map_eq_some_iff.mp h
    exact wideOperand_eq_some.mp hraw ▸ .scanCycle raw
  · obtain ⟨bytes, hbytes, h⟩ := Option.bind_eq_some_iff.mp h
    obtain ⟨hfits, hi⟩ := Option.ite_none_right_eq_some.mp h
    obtain ⟨ascii, rfl⟩ := asciiOperand_eq_some.mp hbytes
    cases hi
    exact .noteName _ ascii ((List.length_map _).symm.trans_le (listFits_iff.mp hfits))
  · obtain ⟨note, hnote, rfl⟩ := Option.map_eq_some_iff.mp h
    exact byteOperand_eq_some.mp hnote ▸ .noteFreq note
  · obtain ⟨raw, hraw, rfl⟩ := Option.map_eq_some_iff.mp h
    exact wideOperand_eq_some.mp hraw ▸ .scan32 raw
  · obtain ⟨ch, note, vel, hops, rfl⟩ := threeBytes_eq_some.mp h
    cases hops
    exact .noteWithOn ch note vel
  · obtain ⟨ch, note, vel, hops, rfl⟩ := threeBytes_eq_some.mp h
    cases hops
    exact .noteWithOff ch note vel
  · cases h

theorem assembleOperands_of_assemblesTo {mnemonic : String} {operands : List Token} {i : Instr}
    (h : AssemblesTo mnemonic operands i) : assembleOperands mnemonic operands = some i := by
  cases h with
  | pitchBend ch value low high => simp [assembleOperands, pitchFits_iff, low, high]
  | sendRaw bytes fits =>
    have hlist := listOperand_listTokens bytes
    simp only [listTokens] at hlist
    simp [assembleOperands, hlist, listFits_iff, fits]
  | noteName chars ascii fits => simp [assembleOperands, asciiOperand_eq_some.mpr ⟨ascii, rfl⟩, listFits_iff, fits]
  | _ => simp [assembleOperands, threeBytes, scan32, noteOnOff]

theorem assembleOperands_eq_some_iff {mnemonic : String} {operands : List Token} {i : Instr} :
    assembleOperands mnemonic operands = some i ↔ AssemblesTo mnemonic operands i :=
  ⟨assemblesTo_of_assembleOperands, assembleOperands_of_assemblesTo⟩

theorem assemblesTo_wellFormed {mnemonic : String} {operands : List Token} {i : Instr}
    (h : AssemblesTo mnemonic operands i) : i.WellFormed := by
  cases h with
  | pitchBend ch v hl hh => exact pitchFits_iff.mpr ⟨hl, hh⟩
  | sendRaw bytes fits => exact listFits_iff.mpr fits
  | noteName chars ascii fits => exact listFits_iff.mpr ((List.length_map _).trans_le fits)
  | _ => rfl

@[simp] theorem integers_operandTokens (values : List Int) : integers (operandTokens values) = values := by
  induction values with
  | nil => rfl
  | cons v vs ih =>
    cases vs with
    | nil => rfl
    | cons v' vs =>
      unfold integers at ih ⊢
      simp [ih]

@[simp] theorem integers_append (ts us : List Token) : integers (ts ++ us) = integers ts ++ integers us := by
  simp [integers]


@[simp] theorem integers_cons_openBracket (ts : List Token) : integers (.openBracket :: ts) = integers ts := rfl

@[simp] theorem integers_closeBracket : integers [.closeBracket] = [] := rfl

/-- The values of words of `w` bits are in the range of a field of `w` bits. -/
theorem toNat_in_range {w k : Nat} {values : List (BitVec w)} {v : Int}
    (hv : (values.map fun x => (x.toNat : Int))[k]? = some v) : 0 ≤ v ∧ v ≤ 2 ^ w - 1 := by
  obtain ⟨x, -, rfl⟩ := List.mem_map.mp (List.mem_of_getElem? hv)
  have hx : (x.toNat : Int) < 2 ^ w := by exact_mod_cast x.isLt
  omega

/-- The mnemonics with an integer operand that is not of eight bits. -/
def wideMnemonics : List String := ["PITCH_BEND", "SCAN_CYCLE", "SCAN32"]

theorem fieldRange_byte {mnemonic : String} (h : mnemonic ∉ wideMnemonics) (k : Nat) :
    fieldRange mnemonic k = (0, 255) := by
  unfold fieldRange
  split
  · exact absurd (by decide) h
  · exact absurd (by decide) h
  · exact absurd (by decide) h
  · rfl

theorem bytes_in_fieldRange {mnemonic : String} (h : mnemonic ∉ wideMnemonics) {bytes : List Byte} {k : Nat} {v : Int}
    (hv : (bytes.map fun b => (b.toNat : Int))[k]? = some v) :
    (fieldRange mnemonic k).1 ≤ v ∧ v ≤ (fieldRange mnemonic k).2 := by
  rw [fieldRange_byte h]
  exact toNat_in_range hv

/-- Each integer operand of a row is in the range of its field. -/
theorem assemblesTo_in_fieldRange {mnemonic : String} {operands : List Token} {i : Instr} {k : Nat} {v : Int}
    (h : AssemblesTo mnemonic operands i) (hv : (integers operands)[k]? = some v) :
    (fieldRange mnemonic k).1 ≤ v ∧ v ≤ (fieldRange mnemonic k).2 := by
  cases h with
  | pitchBend ch value low high =>
    rw [integers_operandTokens] at hv
    match k, hv with
    | 0, hv => exact toNat_in_range (values := [ch]) (k := 0) hv
    | 1, hv =>
      cases hv
      exact ⟨low, high⟩
  | scanCycle raw => exact toNat_in_range (values := [raw]) hv
  | scan32 raw => exact toNat_in_range (values := [raw]) hv
  | sendRaw bytes fits =>
    rw [List.cons_append, integers_cons_openBracket, integers_append, integers_operandTokens, integers_closeBracket,
      List.append_nil] at hv
    exact bytes_in_fieldRange (by decide) hv
  | midiInit => cases hv
  | noteName chars ascii fits => cases hv
  | allNotesOff ch => exact bytes_in_fieldRange (bytes := [ch]) (by decide) hv
  | noteFreq note => exact bytes_in_fieldRange (bytes := [note]) (by decide) hv
  | programChange ch prog => exact bytes_in_fieldRange (bytes := [ch, prog]) (by decide) hv
  | _ x y z => exact bytes_in_fieldRange (bytes := [x, y, z]) (by decide) hv

/-! ### The word of a line -/

/-- `.word72` is no mnemonic. -/
theorem ne_word72_of_assemblesTo {mnemonic : String} {operands : List Token} {i : Instr}
    (h : AssemblesTo mnemonic operands i) : mnemonic ≠ ".word72" := by
  cases h <;> decide

/-- A line whose first word is a mnemonic gives the encoding of its command (R57). -/
theorem assembleTokens_command {name : List Char} {operands : List Token} {w : CommandWord}
    (hname : String.ofList name ≠ ".word72") : assembleTokens (.word name :: operands) = some w ↔
      ∃ i, AssemblesTo (String.ofList name) operands i ∧ w = encode i := by
  simp only [assembleTokens]
  split
  next _ heq => exact absurd heq hname
  next => simp only [Option.map_eq_some_iff, assembleOperands_eq_some_iff, eq_comm (a := w)]

/-- A line that begins with `.word72` gives the operand itself, if it fits (R57). -/
theorem assembleTokens_word72 (operands : List Token) (w : CommandWord) :
    assembleTokens (.word ".word72".toList :: operands) = some w ↔ operands = operandTokens [w.toNat] := by
  simp only [assembleTokens, String.ofList_toList]
  split
  next => simp [wideOperand_eq_some]
  next hno =>
    refine iff_of_false (fun h => ?_) (fun h => hno _ rfl h)
    obtain ⟨i, hi, -⟩ := Option.map_eq_some_iff.mp h
    exact ne_word72_of_assemblesTo (assembleOperands_eq_some_iff.mp hi) rfl

/-- Settles O7: the rows (`assembleOperands_eq_some_iff`), the range of each operand and the well-formedness of the
command read off the row, and the word of a line of either kind. -/
theorem assembledCommandsFitTheirFields : Obligations.AssembledCommandsFitTheirFields := by
  refine ⟨fun _ _ _ => assembleOperands_eq_some_iff, fun m ops k v hv hout => ?_, fun m ops i h => ?_,
    assembleTokens_word72, fun _ _ _ => assembleTokens_command⟩
  · refine Option.eq_none_iff_forall_ne_some.mpr fun i hi => ?_
    obtain ⟨hlow, hhigh⟩ := assemblesTo_in_fieldRange (assembleOperands_eq_some_iff.mp hi) hv
    omega
  · have hwf := assemblesTo_wellFormed (assembleOperands_eq_some_iff.mp h)
    exact ⟨hwf, decodeOfEncodeIsIdentity i hwf⟩

end Sys2Proof.Proofs
end

section
/-! Proofs for the scan (spec/40_scan_debounce.md): one key through one scan, the keys in any order, the events of a
scan, and one key through many scans. -/

namespace Sys2Proof.Proofs

open Sys2Proof.Machine Sys2Proof.Claims

/-! ### One scan (R60 to R65) -/

theorem exec_scanCycle (r : Bitmap) (s : State) : exec (.scanCycle r) s = .next (scanOnce s r) := rfl

/-- The bit of key i in the captured bitmap is the reading of key i (R61). -/
@[simp] theorem key_captureRaw (s : State) (r : Bitmap) (i : Key) :
    key (captureRaw s.cfg.raw32 r) i = reading s r i := by
  cases h : s.cfg.raw32 with
  | false => simp [captureRaw, reading, key, h, BitVec.getLsbD_eq_getElem]
  | true =>
    by_cases hi : 32 ≤ i.val
    · simp [key_captureRaw_of_raw32 r hi, reading, h, hi]
    · simp [captureRaw, reading, key, h, hi, Nat.lt_of_not_le hi]

@[simp] theorem scanOnce_raw (s : State) (r : Bitmap) : (scanOnce s r).raw = captureRaw s.cfg.raw32 r :=
  congrArg State.raw (scanOnce_eq_answered s r)

@[simp] theorem scanOnce_prev (s : State) (r : Bitmap) : (scanOnce s r).prev = s.stable :=
  congrArg State.prev (scanOnce_eq_answered s r)

@[simp] theorem scanOnce_init (s : State) (r : Bitmap) : (scanOnce s r).init = s.init :=
  (congrArg State.init (scanOnce_eq_answered s r) :)

/-- A scan passes each key through its debounce lane (R65). -/
theorem scanOnce_lane (s : State) (r : Bitmap) (i : Key) : (key (scanOnce s r).stable i, (scanOnce s r).count i)
    = debounceLane s.cfg.thresh (reading s r i) (key s.stable i) (s.count i) := by
  have hstable := key_scanRegisters_stable s (captureRaw s.cfg.raw32 r) i
  have hcount := scanRegisters_count s (captureRaw s.cfg.raw32 r) i
  rw [State.lane, key_captureRaw] at hstable hcount
  rw [scanOnce_eq_answered]
  exact Prod.ext hstable hcount

section OneKey

variable {s : State} {r : Bitmap} {i : Key}

/-- An agreeing reading keeps STABLE[i] and clears CNT[i] (R63). -/
theorem scanOnce_of_agree (h : reading s r i = key s.stable i) :
    key (scanOnce s r).stable i = key s.stable i ∧ (scanOnce s r).count i = 0 := by
  simpa [h] using scanOnce_lane s r i

/-- A disagreeing reading short of THRESH keeps STABLE[i] and counts up (R63). -/
theorem scanOnce_of_pending (h : reading s r i ≠ key s.stable i) (hc : s.count i + 1 ≠ s.cfg.thresh) :
    key (scanOnce s r).stable i = key s.stable i ∧ (scanOnce s r).count i = s.count i + 1 := by
  simpa [lane_pending h hc] using scanOnce_lane s r i

/-- A disagreeing reading at THRESH commits (R64). -/
theorem scanOnce_of_commit (h : reading s r i ≠ key s.stable i) (hc : s.count i + 1 = s.cfg.thresh) :
    key (scanOnce s r).stable i = reading s r i ∧ (scanOnce s r).count i = 0 := by
  simpa [lane_commit h hc] using scanOnce_lane s r i

/-- A reading that cannot reach THRESH, whatever it is, keeps STABLE[i] and counts up by at most 1. -/
theorem scanOnce_of_short (h : s.count i + 1 < s.cfg.thresh) :
    key (scanOnce s r).stable i = key s.stable i ∧ (scanOnce s r).count i ≤ s.count i + 1 := by
  by_cases hr : reading s r i = key s.stable i
  · obtain ⟨hstable, hcount⟩ := scanOnce_of_agree hr
    exact ⟨hstable, by omega⟩
  · obtain ⟨hstable, hcount⟩ := scanOnce_of_pending hr h.ne
    exact ⟨hstable, hcount.le⟩

/-- The change set has the bit of exactly the committed keys (R67). -/
theorem key_scanOnce_changes : key (scanOnce s r).changes i = true ↔
    reading s r i ≠ key s.stable i ∧ s.count i + 1 = s.cfg.thresh := by
  have hflip : key (scanOnce s r).changes i = true ↔ key (scanOnce s r).stable i ≠ key s.stable i := by
    simp [State.changes]
  rw [hflip]
  by_cases h : reading s r i = key s.stable i
  · simp [h, (scanOnce_of_agree h).1]
  · by_cases hc : s.count i + 1 = s.cfg.thresh
    · simp [h, hc, (scanOnce_of_commit h hc).1]
    · simp [hc, (scanOnce_of_pending h hc).1]

end OneKey

/-- Settles O27: the fields of the whole effect of a scan (`scanOnce_eq_answered`), and each key's lane. -/
theorem scanCapturesTheRawBitmap : Obligations.ScanCapturesTheRawBitmap := by
  intro r s
  have hraw : captureRaw s.cfg.raw32 r = if s.cfg.raw32 then (r.extractLsb' 0 32).setWidth 64 else r := by
    rw [captureRaw, BitVec.setWidth_eq_extractLsb' (by decide : 32 ≤ 64)]
  have heffect := scanOnce_eq_answered s r
  refine ⟨scanOnce s r, exec_scanCycle r s, (scanOnce_raw s r).trans hraw, scanOnce_prev s r, scanOnce_init s r,
    scanOnce_cfg s r, (congrArg State.inputs heffect :), (congrArg State.txCredit heffect :),
    (congrArg State.inFlight heffect :), (congrArg State.txBefore heffect :), (congrArg State.responses heffect :),
    fun i => ?_⟩
  rw [scanOnce_raw, key_captureRaw]
  exact ⟨rfl, scanOnce_lane s r i⟩

/-- Settles O28: the three cases of a key's reading; the bound by `lane_inv`. -/
theorem debounceFollowsItsRules : Obligations.DebounceFollowsItsRules := by
  intro r s
  refine ⟨scanOnce s r, exec_scanCycle r s, fun i => ⟨scanOnce_of_agree, scanOnce_of_pending, fun h hc => ?_,
    fun hc => ?_⟩⟩
  · obtain ⟨hstable, hcount⟩ := scanOnce_of_commit h hc
    exact ⟨hstable, by rwa [hstable], hcount⟩
  · have hlane : (scanOnce s r).count i = _ := congrArg Prod.snd (scanOnce_lane s r i)
    rw [hlane]
    exact (lane_inv hc).1

/-- Settles O37: the lanes of both states read the same values, and RAW, PREV and CHANGES follow. -/
theorem commitsDoNotDependOnEmission : Obligations.CommitsDoNotDependOnEmission := by
  intro s s' r hstable hcnt hthresh hraw32
  have hlane (i : Key) : (key (scanOnce s r).stable i, (scanOnce s r).count i)
      = (key (scanOnce s' r).stable i, (scanOnce s' r).count i) := by
    rw [scanOnce_lane, scanOnce_lane]
    simp only [reading, State.count, hstable, hcnt, hthresh, hraw32]
  have hstable' : (scanOnce s r).stable = (scanOnce s' r).stable := bitmap_ext fun i => congrArg Prod.fst (hlane i)
  have hcnt' : (scanOnce s r).cnt = (scanOnce s' r).cnt := cnt_ext fun i => congrArg Prod.snd (hlane i)
  refine ⟨?_, hstable', ?_, hcnt', ?_⟩
  · simp [hraw32]
  · simp [hstable]
  · simp [State.changes, hstable', hstable]

/-! ### The keys in any order (R65) -/

section Order

variable (r : Bitmap) (s : State) (i j : Key)

@[simp] theorem key_debounceKey_stable : key (State.debounceKey r s i).stable j
    = if j = i then (s.lane r i).1 else key s.stable j := by
  simp [State.debounceKey]

@[simp] theorem debounceKey_count : (State.debounceKey r s i).count j
    = if j = i then (s.lane r i).2 else s.count j := by
  simp only [State.count, State.debounceKey, Vector.getElem_set, Fin.val_inj, eq_comm (a := i)]

/-- Debouncing a key writes nothing but STABLE and CNT. -/
theorem debounceKey_frame : State.debounceKey r s i
    = { s with stable := (State.debounceKey r s i).stable, cnt := (State.debounceKey r s i).cnt } := rfl

variable {i j}

/-- The lane of a key does not see another key's debounce. -/
theorem lane_debounceKey_of_ne (h : j ≠ i) : (State.debounceKey r s i).lane r j = s.lane r j := by
  rw [State.lane, key_debounceKey_stable, debounceKey_count, if_neg h, if_neg h]
  rfl

end Order

theorem debounceInOrder_cons (i : Key) (order : List Key) (s : State) (r : Bitmap) :
    s.debounceInOrder (i :: order) r = (State.debounceKey r s i).debounceInOrder order r := rfl

/-- Debouncing some keys, each at most once, passes those through their lanes and leaves the others as they are. -/
theorem debounceInOrder_lane {order : List Key} (hnodup : order.Nodup) (s : State) (r : Bitmap) (j : Key) :
    (key (s.debounceInOrder order r).stable j, (s.debounceInOrder order r).count j)
      = if j ∈ order then s.lane r j else (key s.stable j, s.count j) := by
  induction order generalizing s with
  | nil => rfl
  | cons i is ih =>
    obtain ⟨hi, his⟩ := List.nodup_cons.mp hnodup
    rw [debounceInOrder_cons, ih his]
    by_cases hj : j = i
    · subst hj
      simp [hi]
    · simp [hj, lane_debounceKey_of_ne]

theorem debounceInOrder_frame (order : List Key) (s : State) (r : Bitmap) : s.debounceInOrder order r
    = { s with stable := (s.debounceInOrder order r).stable, cnt := (s.debounceInOrder order r).cnt } := by
  induction order generalizing s with
  | nil => rfl
  | cons i is ih =>
    rw [debounceInOrder_cons, ih]
    rfl

theorem debounceAll_lane (s : State) (r : Bitmap) (j : Key) :
    (key (s.debounceAll r).stable j, (s.debounceAll r).count j) = s.lane r j := by
  simp [State.debounceAll, State.count]

theorem debounceInOrder_eq_debounceAll {order : List Key} (h : order.Perm keys) (s : State) (r : Bitmap) :
    s.debounceInOrder order r = s.debounceAll r := by
  have hlane (j : Key) : (key (s.debounceInOrder order r).stable j, (s.debounceInOrder order r).count j)
      = (key (s.debounceAll r).stable j, (s.debounceAll r).count j) := by
    rw [debounceInOrder_lane (h.nodup_iff.mpr (List.nodup_finRange 64)), if_pos (h.mem_iff.mpr (mem_keys j)),
      debounceAll_lane]
  have hstable := bitmap_ext fun j => congrArg Prod.fst (hlane j)
  have hcnt := cnt_ext fun j => congrArg Prod.snd (hlane j)
  rw [debounceInOrder_frame, hstable, hcnt]
  rfl

/-- Settles O29: in any order of all the keys each is debounced once; a key's lane, and the frame of `debounceKey`. -/
theorem debounceOrderDoesNotMatter : Obligations.DebounceOrderDoesNotMatter := by
  refine ⟨fun order s r hperm => ?_, fun s s' r r' i hthresh hreading hstable hcount => ?_, fun s r i j hne => ?_⟩
  · exact debounceInOrder_eq_debounceAll hperm s r
  · have hlane : (key (scanOnce s r).stable i, (scanOnce s r).count i)
        = (key (scanOnce s' r').stable i, (scanOnce s' r').count i) := by
      rw [scanOnce_lane, scanOnce_lane, hthresh, hreading, hstable, hcount]
    exact Prod.mk.inj hlane
  · exact ⟨by simp [hne], by simp [hne], debounceKey_frame r s i⟩

/-! ### The events of a scan (R67 to R69, R73) -/

theorem setup_ranges (p : Setup) : ChannelInRange p.midiChannel ∧ (1 ≤ p.velOn.toNat ∧ p.velOn.toNat ≤ 127) ∧
    p.velOff.toNat ≤ 127 := by
  have h := p.ok
  simp only [setupOk, Bool.and_eq_true, decide_eq_true_eq] at h
  obtain ⟨⟨⟨hch, hon⟩, hoff⟩, -⟩ := h
  exact ⟨hch, hon, hoff⟩

/-- A value of 7 bits is its own data byte (R76). -/
theorem dataByte_of_le {b : Byte} (h : b.toNat ≤ 127) : dataByte b.toNat = b := by
  apply BitVec.eq_of_toNat_eq
  rw [dataByte_toNat]
  omega

/-- With a channel and a velocity in range only the note can drop a Note On (R83). -/
theorem noteOnMessage_getD {ch vel : Byte} (note : Byte) (hch : ChannelInRange ch)
    (hvel : 1 ≤ vel.toNat ∧ vel.toNat ≤ 127) : (noteOnMessage ch note vel).getD []
      = if 127 < note.toNat then [] else [0x90#8 ||| (ch - 1#8), note, vel] := by
  obtain ⟨hlow, hhigh⟩ := hch
  by_cases hnote : note.toNat ≤ 127
  · simp [noteOnMessage, channelOk, sevenBitOk, noteOnVelocityOk, hlow, hhigh, hnote, hvel, Nat.not_lt.mpr hnote,
      dataByte_of_le, statusByte, opcNoteOn]
  · simp [noteOnMessage, sevenBitOk, hnote, Nat.lt_of_not_le hnote]

/-- With a channel and a velocity in range only the note can drop a Note Off (R84). -/
theorem noteOffMessage_getD {ch vel : Byte} (note : Byte) (hch : ChannelInRange ch) (hvel : vel.toNat ≤ 127) :
    (noteOffMessage ch note vel).getD []
      = if 127 < note.toNat then [] else [0x80#8 ||| (ch - 1#8), note, vel] := by
  obtain ⟨hlow, hhigh⟩ := hch
  by_cases hnote : note.toNat ≤ 127
  · simp [noteOffMessage, channelOk, sevenBitOk, hlow, hhigh, hnote, hvel, Nat.not_lt.mpr hnote, dataByte_of_le,
      statusByte, opcNoteOff]
  · simp [noteOffMessage, sevenBitOk, hnote, Nat.lt_of_not_le hnote]

/-- The message of a key event: the parameters are in range, so that only the note can drop it (R69, R72). -/
theorem keyMessage_getD (s : State) (i : Key) : (s.keyMessage i).getD [] = eventOf s (key s.stable i) i := by
  obtain ⟨hch, hon, hoff⟩ := setup_ranges s.cfg.setup
  cases hk : key s.stable i with
  | false => simp [State.keyMessage, eventOf, hk, noteOffMessage_getD _ hch hoff]
  | true => simp [State.keyMessage, eventOf, hk, noteOnMessage_getD _ hch hon]

/-- What a scan appends to TX: the event of each changed key, in ascending key index, if INIT is set. -/
theorem scanOnce_tx (s : State) (r : Bitmap) : (scanOnce s r).tx = s.tx ++ if s.init then
    keys.flatMap (fun i => if key (scanOnce s r).changes i then eventOf s (key (scanOnce s r).stable i) i else [])
    else [] := by
  have hevent (i : Key) : (s.scanRegisters (captureRaw s.cfg.raw32 r)).eventBytes i
      = if key (scanOnce s r).changes i then eventOf s (key (scanOnce s r).stable i) i else [] := by
    rw [State.eventBytes, keyMessage_getD, scanOnce_eq_answered]
    rfl
  rw [← funext hevent, scanOnce_eq_answered]
  rfl

/-- Settles O30: the change set is the committed keys (`key_scanOnce_changes`), and each has its event
(`scanOnce_tx`). -/
theorem scanEmitsOneEventPerChange : Obligations.ScanEmitsOneEventPerChange := by
  intro r s
  refine ⟨scanOnce s r, exec_scanCycle r s, ?_, fun i => key_scanOnce_changes, scanOnce_tx s r⟩
  rw [State.changes, scanOnce_prev]

theorem length_eventOf_le (s : State) (pressed : Bool) (i : Key) : (eventOf s pressed i).length ≤ 3 := by
  simp only [eventOf]
  split
  · simp
  · cases pressed <;> simp

theorem length_flatMap_keys_le {f : Key → List Byte} (h : ∀ i, (f i).length ≤ 3) :
    (keys.flatMap f).length ≤ 192 := by
  rw [List.length_flatMap]
  calc (keys.map fun i => (f i).length).sum
    _ ≤ (keys.map fun i => (f i).length).length • 3 := List.sum_le_card_nsmul _ _ (by simpa using h)
    _ = 192 := by simp [keys]

/-- Settles O31: 64 keys, and an event of at most 3 bytes for each. -/
theorem scanEmitsAtMost192Bytes : Obligations.ScanEmitsAtMost192Bytes := by
  intro r s
  rw [scanOnce_tx, List.length_append, Nat.add_le_add_iff_left]
  cases s.init with
  | false => simp
  | true =>
    refine length_flatMap_keys_le fun i => ?_
    split
    · exact length_eventOf_le s _ i
    · simp

/-! ### Many scans of one key (R70, R71) -/

theorem scanAll_cons (s : State) (r : Bitmap) (scans : List Bitmap) :
    scanAll s (r :: scans) = scanAll (scanOnce s r) scans := rfl

theorem scanAll_concat (s : State) (scans : List Bitmap) (r : Bitmap) :
    scanAll s (scans ++ [r]) = scanOnce (scanAll s scans) r := by
  simp [scanAll]

@[simp] theorem scanAll_cfg (s : State) (scans : List Bitmap) : (scanAll s scans).cfg = s.cfg := by
  induction scans generalizing s with
  | nil => rfl
  | cons r scans ih => rw [scanAll_cons, ih, scanOnce_cfg]

/-- A reading depends on the bitmap and RAW32 alone. -/
@[simp] theorem reading_scanOnce (s : State) (r r' : Bitmap) (i : Key) :
    reading (scanOnce s r) r' i = reading s r' i := by
  simp only [reading, scanOnce_cfg]

@[simp] theorem reading_scanAll (s : State) (scans : List Bitmap) (r : Bitmap) (i : Key) :
    reading (scanAll s scans) r i = reading s r i := by
  simp only [reading, scanAll_cfg]

/-- While the counter cannot have reached THRESH a key does not flip, whatever is read. -/
theorem scanAll_of_short {s : State} {i : Key} {scans : List Bitmap} (h : s.count i + scans.length < s.cfg.thresh) :
    key (scanAll s scans).stable i = key s.stable i := by
  induction scans generalizing s with
  | nil => rfl
  | cons r scans ih =>
    rw [List.length_cons] at h
    obtain ⟨hstable, hcount⟩ := scanOnce_of_short (r := r) (show s.count i + 1 < s.cfg.thresh by omega)
    rw [scanAll_cons, ih (by rw [scanOnce_cfg]; omega), hstable]

/-- Disagreeing scans short of THRESH each count up. -/
theorem scanAll_count_of_disagree {s : State} {i : Key} {scans : List Bitmap}
    (h : s.count i + scans.length < s.cfg.thresh) (hr : ∀ r ∈ scans, reading s r i ≠ key s.stable i) :
    (scanAll s scans).count i = s.count i + scans.length := by
  induction scans generalizing s with
  | nil => rfl
  | cons r scans ih =>
    rw [List.length_cons] at h ⊢
    obtain ⟨hhead, htail⟩ := List.forall_mem_cons.mp hr
    obtain ⟨hstable, hcount⟩ := scanOnce_of_pending hhead (by omega)
    rw [scanAll_cons, ih (by rw [scanOnce_cfg]; omega) (by simpa [hstable] using htail), hcount]
    omega

/-- Settles O32: the scans before the last count up to THRESH - 1, and the last commits. -/
theorem thresholdDisagreementsCommit : Obligations.ThresholdDisagreementsCommit := by
  intro s i scans hzero hlen hr
  have before (n : Nat) (hn : n < s.cfg.thresh) : key (scanAll s (scans.take n)).stable i = key s.stable i ∧
      (scanAll s (scans.take n)).count i = n := by
    have htake : (scans.take n).length = n := by rw [List.length_take]; omega
    refine ⟨scanAll_of_short (by omega), ?_⟩
    rw [scanAll_count_of_disagree (by omega) fun r hmem => hr r (List.mem_of_mem_take hmem), hzero, htake, Nat.zero_add]
  refine ⟨before, ?_⟩
  have hpos := (thresh_bounds s.cfg).1
  obtain rfl | ⟨front, last, rfl⟩ := List.eq_nil_or_concat' scans
  case inl => exact absurd hlen hpos.ne
  rw [List.length_append, List.length_singleton] at hlen
  obtain ⟨hstable, hcount⟩ := before front.length (by omega)
  rw [List.take_left] at hstable hcount
  have hlast : reading (scanAll s front) last i ≠ key (scanAll s front).stable i := by
    simpa [hstable] using hr last (by simp)
  have hreach : (scanAll s front).count i + 1 = (scanAll s front).cfg.thresh := by rw [hcount, scanAll_cfg, hlen]
  obtain ⟨hflip, hclear⟩ := scanOnce_of_commit hlast hreach
  rw [scanAll_concat]
  refine ⟨?_, hclear, key_scanOnce_changes.mpr ⟨hlast, hreach⟩⟩
  rw [hflip, Bool.eq_not.mpr hlast, hstable]

/-- Settles O33: too few scans to reach THRESH (`scanAll_of_short`), then an agreeing one. -/
theorem shortDisagreementIsForgotten : Obligations.ShortDisagreementIsForgotten := by
  intro s i scans r hzero hlen
  have hstable : key (scanAll s scans).stable i = key s.stable i := scanAll_of_short (by omega)
  refine ⟨hstable, fun hr => ?_⟩
  rw [scanAll_concat, ← hstable]
  exact scanOnce_of_agree (by rw [reading_scanAll, hr, hstable])

/-- Settles O34, by induction on the scans. An agreeing reading clears the counter; a disagreeing one makes it 1, short
of THRESH, and the reading after it agrees: so again a disagreeing reading can only come first on a clear counter. -/
theorem alternatingReadingNeverCommits : Obligations.AlternatingReadingNeverCommits := by
  intro s i scans hthresh halt hfirst
  induction scans generalizing s with
  | nil => rfl
  | cons r scans ih =>
    have hstep : key (scanOnce s r).stable i = key s.stable i ∧
        ∀ h : 0 < scans.length, reading s scans[0] i ≠ key s.stable i → (scanOnce s r).count i = 0 := by
      by_cases hr : reading s r i = key s.stable i
      · obtain ⟨hstable, hcount⟩ := scanOnce_of_agree hr
        exact ⟨hstable, fun _ _ => hcount⟩
      · have hzero : s.count i = 0 := hfirst (Nat.succ_pos _) hr
        refine ⟨(scanOnce_of_pending hr (by omega)).1, fun h hne => ?_⟩
        have hnext : reading s scans[0] i ≠ reading s r i := halt 0 (Nat.succ_lt_succ h)
        exact absurd ((Bool.eq_not.mpr hne).trans (Bool.eq_not.mpr hr).symm) hnext
    obtain ⟨hstable, hcount⟩ := hstep
    rw [scanAll_cons, ih (scanOnce s r) (by rwa [scanOnce_cfg]) ?_ (by simpa [hstable] using hcount), hstable]
    intro n h
    simpa using halt (n + 1) (Nat.succ_lt_succ h)

/-! ### Keys held from the start (R117) -/

/-- A scan that no counter can reach THRESH in emits nothing. -/
theorem scanOnce_tx_of_short {s : State} {r : Bitmap} (h : ∀ i, s.count i + 1 < s.cfg.thresh) :
    (scanOnce s r).tx = s.tx := by
  have hchanges (i : Key) : key (scanOnce s r).changes i = false :=
    Bool.eq_false_iff.mpr fun hc => (h i).ne (key_scanOnce_changes.mp hc).2
  simp [scanOnce_tx, hchanges]

theorem scanAll_tx_of_short {s : State} {scans : List Bitmap} (h : ∀ i, s.count i + scans.length < s.cfg.thresh) :
    (scanAll s scans).tx = s.tx := by
  induction scans generalizing s with
  | nil => rfl
  | cons r scans ih =>
    simp only [List.length_cons] at h
    have hshort (i : Key) : s.count i + 1 < s.cfg.thresh := by
      have := h i
      omega
    have hrest (i : Key) : (scanOnce s r).count i + scans.length < (scanOnce s r).cfg.thresh := by
      have := h i
      have := (scanOnce_of_short (r := r) (hshort i)).2
      rw [scanOnce_cfg]
      omega
    rw [scanAll_cons, ih hrest, scanOnce_tx_of_short hshort]

@[simp] theorem scanAll_init (s : State) (scans : List Bitmap) : (scanAll s scans).init = s.init := by
  induction scans generalizing s with
  | nil => rfl
  | cons r scans ih => rw [scanAll_cons, ih, scanOnce_init]

/-- The events of a key depend on the parameters alone. -/
@[simp] theorem eventOf_scanAll (s : State) (scans : List Bitmap) : eventOf (scanAll s scans) = eventOf s := by
  funext pressed i
  simp only [eventOf, scanAll_cfg]

/-- The scan in which the held keys, one reading short of THRESH, all commit: STABLE becomes the reading, and each held
key gives its Note On. -/
theorem scanOnce_of_held {s : State} {r : Bitmap} (hreleased : ∀ i, key s.stable i = false)
    (hheld : ∀ i, reading s r i = true → s.count i + 1 = s.cfg.thresh) :
    (∀ i, key (scanOnce s r).stable i = reading s r i) ∧ (s.init = true →
      (scanOnce s r).tx = s.tx ++ keys.flatMap fun i => if reading s r i then eventOf s true i else []) := by
  have hchanges (i : Key) : key (scanOnce s r).changes i = reading s r i := by
    rw [Bool.eq_iff_iff, key_scanOnce_changes, hreleased]
    exact ⟨fun h => Bool.eq_true_of_not_eq_false h.1, fun h => ⟨by simp [h], hheld i h⟩⟩
  have hstable (i : Key) : key (scanOnce s r).stable i = reading s r i := by
    simpa [State.changes, hreleased] using hchanges i
  refine ⟨hstable, fun hinit => ?_⟩
  simp only [scanOnce_tx, hinit, if_true, hchanges, hstable]
  refine congrArg (s.tx ++ ·) (List.flatMap_congr fun i _ => ?_)
  cases reading s r i <;> rfl

/-- Settles O36: too few scans emit nothing (`scanAll_tx_of_short`), and after THRESH - 1 of them the held keys are one
reading short of a commit (`scanOnce_of_held`). -/
theorem heldKeysReportInTheThresholdScan : Obligations.HeldKeysReportInTheThresholdScan := by
  intro s r hzero hcount hinit
  have hquiet (n : Nat) (hn : n < s.cfg.thresh) : (scanAll s (List.replicate n r)).tx = s.tx :=
    scanAll_tx_of_short fun i => by simpa [hcount] using hn
  refine ⟨hquiet, ?_⟩
  obtain ⟨n, hn⟩ := Nat.exists_eq_add_one.mpr (thresh_bounds s.cfg).1
  have hreleased (i : Key) : key (scanAll s (List.replicate n r)).stable i = false := by
    rw [scanAll_of_short (by simp [hcount, hn]), hzero, key_zero]
  have hheld (i : Key) (hi : reading s r i = true) : (scanAll s (List.replicate n r)).count i + 1 = s.cfg.thresh := by
    rw [scanAll_count_of_disagree (by simp [hcount, hn]) (by simp [hi, hzero]), hcount, hn, List.length_replicate,
      Nat.zero_add]
  obtain ⟨hstable, htx⟩ := scanOnce_of_held (r := r) hreleased (by simpa using hheld)
  rw [hn, List.replicate_succ', scanAll_concat]
  refine ⟨by simpa using hstable, ?_⟩
  simpa [hquiet n (by omega)] using htx (by simpa using hinit)

end Sys2Proof.Proofs
end

section
/-! Proofs for the MIDI encoder (spec/41_midi_encoder.md): the range checks and the bytes in the terms of the rules, the
whole effect of each of its eight commands, and the shape of a message. -/

namespace Sys2Proof.Proofs

open Sys2Proof.Machine Sys2Proof.Claims

/-! ### The range checks and the data bytes (R76, R83 to R87) -/

@[simp] theorem channelOk_iff {ch : Byte} : channelOk ch = true ↔ 1 ≤ ch.toNat ∧ ch.toNat ≤ 16 := by
  simp [channelOk]

@[simp] theorem sevenBitOk_iff {v : Byte} : sevenBitOk v = true ↔ v.toNat ≤ 127 := by
  simp [sevenBitOk]

@[simp] theorem noteOnVelocityOk_iff {vel : Byte} :
    noteOnVelocityOk vel = true ↔ 1 ≤ vel.toNat ∧ vel.toNat ≤ 127 := by
  simp [noteOnVelocityOk]

@[simp] theorem pitchOk_iff {value : Int} : pitchOk value = true ↔ -8192 ≤ value ∧ value ≤ 8191 := by
  simp [pitchOk]

/-- The data byte of a byte is the byte with bit 7 masked off (R76). -/
theorem dataByte_eq_and (b : Byte) : dataByte b.toNat = b &&& 0x7F#8 := by
  apply BitVec.eq_of_toNat_eq
  rw [dataByte_toNat, BitVec.toNat_and]
  exact (Nat.and_two_pow_sub_one_eq_mod b.toNat 7).symm

/-- The two data bytes of a 14-bit value are its remainder and its quotient by 128 (R87). -/
theorem dataBytes_eq_ofInt {u : Int} (hlow : 0 ≤ u) (hhigh : u < 16384) :
    dataByte u.toNat = BitVec.ofInt 8 (u % 128) ∧ dataByte (u.toNat >>> 7) = BitVec.ofInt 8 (u / 128) := by
  constructor
  · apply BitVec.eq_of_toNat_eq
    rw [dataByte_toNat, BitVec.toNat_ofInt]
    omega
  · apply BitVec.eq_of_toNat_eq
    rw [dataByte_toNat, BitVec.toNat_ofInt, Nat.shiftRight_eq_div_pow]
    omega

/-! ### The whole effect of a message command (R74, R80) -/

/-- The message of a message command; none where a range check drops it, and of the other commands. -/
def messageOf : Instr → Option (List Byte)
  | .noteOn ch note vel => noteOnMessage ch note vel
  | .noteOff ch note vel => noteOffMessage ch note vel
  | .controlChange ch ctl val => controlChangeMessage ch ctl val
  | .programChange ch prog => programChangeMessage ch prog
  | .pitchBend ch value => pitchBendMessage ch value
  | .allNotesOff ch => controlChangeMessage ch 123#8 0#8
  | _ => none

/-- A message command hands its message to SendBytes and responds (R74). -/
theorem exec_eq_sendMessage {i : Instr} {ch : Byte} (h : channelOf i = some ch) (s : State) :
    exec i s = .next ((s.sendMessage (messageOf i)).respond Response.none) := by
  cases i <;> cases h <;> rfl

/-- A message command whose range check means `InRange` emits its bytes if INIT is set and its arguments are in range,
responds without a result, and does nothing else. -/
theorem exec_of_check {i : Instr} {ch : Byte} {check : Bool} {InRange : Prop} [Decidable InRange]
    {message bytes : List Byte} (hch : channelOf i = some ch)
    (hmessage : messageOf i = if check then some message else none) (s : State)
    (hcheck : check = true ↔ InRange) (hbytes : InRange → message = bytes) :
    exec i s = .next (answered s (if s.init = true ∧ InRange then bytes else []) noResult) := by
  rw [exec_eq_sendMessage hch, respond_sendMessage_eq_answered, hmessage]
  refine congrArg (fun emitted => Host.Outcome.next (answered s emitted noResult)) ?_
  by_cases hin : InRange
  · simp [hin, hcheck.mpr hin, hbytes hin]
  · simp [hin, hcheck]

/-- Settles O38, by the effect of a message command with the range check of R83. -/
theorem noteOnEmitsItsMessage : Obligations.NoteOnEmitsItsMessage := by
  refine ⟨fun w op => decode_eq_ok_iff.mpr (.noteOn op),
    fun ch note vel s => exec_of_check rfl rfl s ?_ fun _ => ?_⟩
  · simp [and_assoc]
  · rw [dataByte_eq_and, dataByte_eq_and]
    rfl

/-- Settles O39, by the effect of a message command with the range check of R84. -/
theorem noteOffEmitsItsMessage : Obligations.NoteOffEmitsItsMessage := by
  refine ⟨fun w op => decode_eq_ok_iff.mpr (.noteOff op),
    fun ch note vel s => exec_of_check rfl rfl s ?_ fun _ => ?_⟩
  · simp [and_assoc]
  · rw [dataByte_eq_and, dataByte_eq_and]
    rfl

/-- Settles O40, by the effect of a message command with the range check of R85. -/
theorem controlChangeEmitsItsMessage : Obligations.ControlChangeEmitsItsMessage := by
  refine ⟨fun w op => decode_eq_ok_iff.mpr (.controlChange op),
    fun ch ctl val s => exec_of_check rfl rfl s ?_ fun _ => ?_⟩
  · simp [and_assoc]
  · rw [dataByte_eq_and, dataByte_eq_and]
    rfl

/-- Settles O41, by the effect of a message command with the range check of R86. -/
theorem programChangeEmitsItsMessage : Obligations.ProgramChangeEmitsItsMessage := by
  refine ⟨fun w op => decode_eq_ok_iff.mpr (.programChange op),
    fun ch prog s => exec_of_check rfl rfl s ?_ fun _ => ?_⟩
  · simp
  · rw [dataByte_eq_and]
    rfl

/-- Settles O42: in range, v + 8192 has 14 bits, which the two data bytes split by 128. -/
theorem pitchBendEmitsItsMessage : Obligations.PitchBendEmitsItsMessage := by
  refine ⟨fun w op => decode_eq_ok_iff.mpr (.pitchBend op),
    fun ch v s => exec_of_check rfl rfl s ?_ ?_⟩
  · simp
  · rintro ⟨-, hlow, hhigh⟩
    obtain ⟨hfirst, hsecond⟩ := dataBytes_eq_ofInt (u := v + 8192) (by omega) (by omega)
    rw [hfirst, hsecond]
    rfl

/-- ALL_NOTES_OFF is the Control Change of controller 123 and value 0 (R88). -/
theorem exec_allNotesOff_eq_controlChange (ch : Byte) (s : State) :
    exec (.allNotesOff ch) s = exec (.controlChange ch 123#8 0#8) s := rfl

/-- Settles O43: the effect is that of the Control Change (O40), whose two data arguments are in range. -/
theorem allNotesOffIsControlChange123 : Obligations.AllNotesOffIsControlChange123 := by
  refine ⟨fun w op => decode_eq_ok_iff.mpr (.allNotesOff op),
    fun ch s => ⟨?_, exec_allNotesOff_eq_controlChange ch s⟩⟩
  rw [exec_allNotesOff_eq_controlChange, controlChangeEmitsItsMessage.2]
  simp

/-! ### The commands that build no message (R81, R82) -/

/-- Settles O44: SEND_RAW hands over its list as a message that is never dropped. -/
theorem sendRawEmitsItsBytesUnmodified : Obligations.SendRawEmitsItsBytesUnmodified :=
  ⟨fun _ op => decode_eq_ok_iff.mpr (.sendRaw op),
    fun bytes s => congrArg _ (respond_sendMessage_eq_answered s (some bytes) Response.none)⟩

/-- Settles O45: the next state is INIT set and the response given, which are the two fields written. -/
theorem midiInitSetsTheFlag : Obligations.MidiInitSetsTheFlag :=
  ⟨fun _ op => decode_eq_ok_iff.mpr (.midiInit op), fun _ => rfl⟩

/-! ### The shape of a message (R74 to R77) -/

/-- The status opcodes of R77. -/
def statusOpcodes : List Byte := [opcNoteOff, opcNoteOn, opcControlChange, opcProgramChange, opcPitchBend]

/-- A status opcode has bit 7 set and leaves the low nibble to the channel (R75). -/
theorem statusOpcode_bits : ∀ opc ∈ statusOpcodes, opc.getLsbD 7 = true ∧ opc &&& 0x0F#8 = 0#8 := by
  decide

theorem statusByte_bit7 {opc : Byte} (h : opc ∈ statusOpcodes) (ch : Byte) :
    (statusByte opc ch).getLsbD 7 = true := by
  rw [statusByte, BitVec.getLsbD_or, (statusOpcode_bits opc h).1, Bool.true_or]

theorem statusByte_lowNibble {opc ch : Byte} (h : opc ∈ statusOpcodes) (hch : ChannelInRange ch) :
    (statusByte opc ch &&& 0x0F#8).toNat + 1 = ch.toNat := by
  obtain ⟨hlow, hhigh⟩ := hch
  have hchannel : ((ch - 1#8) &&& 0x0F#8).toNat = (ch - 1#8).toNat % 16 :=
    Nat.and_two_pow_sub_one_eq_mod (ch - 1#8).toNat 4
  rw [statusByte, BitVec.and_comm, BitVec.and_or_distrib_left, BitVec.and_comm, (statusOpcode_bits opc h).2,
    BitVec.zero_or, BitVec.and_comm, hchannel]
  bv_omega

theorem dataByte_bit7 (v : Nat) : (dataByte v).getLsbD 7 = false := by
  simp [dataByte]

/-- A whole message of `length` bytes on channel `ch`: a status byte and data bytes. -/
def IsMessage (ch : Byte) (length : Nat) (bytes : List Byte) : Prop :=
  ∃ status data, bytes = status :: data ∧ 1 + data.length = length ∧ status.getLsbD 7 = true ∧
    (status &&& 0x0F#8).toNat + 1 = ch.toNat ∧ ∀ b ∈ data, b.getLsbD 7 = false

/-- A status opcode and data values, if the range check they are behind passes and includes the channel's, make a
message. -/
theorem isMessage_of_check {check : Bool} {opc ch : Byte} {values : List Nat} {bytes : List Byte}
    (hopc : opc ∈ statusOpcodes) (hcheck : check = true → channelOk ch = true)
    (h : (if check then some (statusByte opc ch :: values.map dataByte) else none) = some bytes) :
    IsMessage ch (1 + values.length) bytes := by
  obtain ⟨hpass, hbytes⟩ := Option.ite_none_right_eq_some.mp h
  cases hbytes
  refine ⟨_, _, rfl, by rw [List.length_map], statusByte_bit7 hopc ch,
    statusByte_lowNibble hopc (channelOk_iff.mp (hcheck hpass)),
    List.forall_mem_map.mpr fun v _ => dataByte_bit7 v⟩

/-- The message of each message command has the length of R77, with its own channel in the status byte. -/
theorem messageOf_isMessage {i : Instr} {ch : Byte} {bytes : List Byte} (hch : channelOf i = some ch)
    (h : messageOf i = some bytes) : IsMessage ch (messageLength i) bytes := by
  cases i <;> cases hch
  case noteOn note vel =>
    exact isMessage_of_check (values := [note.toNat, vel.toNat]) (by decide) (by simp +contextual) h
  case noteOff note vel =>
    exact isMessage_of_check (values := [note.toNat, vel.toNat]) (by decide) (by simp +contextual) h
  case controlChange ctl val =>
    exact isMessage_of_check (values := [ctl.toNat, val.toNat]) (by decide) (by simp +contextual) h
  case programChange prog =>
    exact isMessage_of_check (values := [prog.toNat]) (by decide) (by simp +contextual) h
  case pitchBend value =>
    exact isMessage_of_check (values := [(value + 8192).toNat, (value + 8192).toNat >>> 7]) (by decide)
      (by simp +contextual) h
  case allNotesOff => exact isMessage_of_check (values := [123, 0]) (by decide) (by simp +contextual) h

/-- Settles O46: a message command appends its message if INIT is set and the range checks pass, else nothing, and the
message has the shape of R75 to R77 (`messageOf_isMessage`). -/
theorem messagesHaveStatusAndDataBytes : Obligations.MessagesHaveStatusAndDataBytes := by
  intro i ch s t hch ht
  cases (exec_eq_sendMessage hch s).symm.trans ht
  cases hinit : s.init with
  | false => exact .inl (by simp [sendMessage_eq, hinit])
  | true =>
    cases hmessage : messageOf i with
    | none => exact .inl rfl
    | some bytes =>
      obtain ⟨status, data, rfl, hshape⟩ := messageOf_isMessage hch hmessage
      exact .inr ⟨status, data, by simp [sendMessage_eq, hinit], hshape⟩

end Sys2Proof.Proofs
end

section
/-! Proofs for the note conversions (spec/42_note_conversion.md): the names and their numbers, and the law of the
frequencies over the reals. -/

namespace Sys2Proof.Proofs

open Sys2Proof.Machine Sys2Proof.Claims

/-! ### The names of the notes (R89 to R95) -/

/-- The letters of the names (R90). -/
def noteLetters : List Byte := [0x41#8, 0x42#8, 0x43#8, 0x44#8, 0x45#8, 0x46#8, 0x47#8]

/-- What may stand between the letter and the octave digit (R92, R93). -/
def accidentals : List (Option Byte) := [none, some 0x23#8, some 0x62#8]

theorem mem_noteLetters_of_letterSemitone {letter : Byte} {natural : Nat} (h : letterSemitone letter = some natural) :
    letter ∈ noteLetters := by
  unfold letterSemitone at h
  split at h <;> cases h <;> simp [noteLetters, BitVec.toNat_eq, *]

theorem mem_accidentals_of_withAccidental {letter : Byte} {natural semitone : Nat} {accidental : Option Byte}
    (h : withAccidental letter natural accidental = some semitone) : accidental ∈ accidentals := by
  cases accidental with
  | none => decide
  | some a =>
    by_cases hsharp : a = 0x23#8
    · subst hsharp; decide
    · by_cases hflat : a = 0x62#8
      · subst hflat; decide
      · simp [withAccidental, hsharp, hflat] at h

/-- The seventeen names are all that the seven letters and the three accidentals make, by the table (R91 to R93). -/
theorem mem_namesOfSemitones_of_bind : ∀ letter ∈ noteLetters, ∀ accidental ∈ accidentals,
    ∀ semitone, (letterSemitone letter).bind (withAccidental letter · accidental) = some semitone →
      (letter :: accidental.toList, semitone) ∈ namesOfSemitones := by
  intro letter hletter accidental haccidental semitone h
  fin_cases hletter <;> fin_cases haccidental <;> cases h <;> decide

/-- The number of a name depends on its semitone and its octave digit alone (R94). -/
theorem noteNameToNumber_append {name : List Byte} {semitone : Nat} (h : (name, semitone) ∈ namesOfSemitones)
    (digit : Byte) : noteNameToNumber (name ++ [digit])
      = ((octaveDigit digit).bind (noteInOctave · semitone)).getD 255#8 := by
  fin_cases h <;> rfl

theorem octaveDigit_eq_some_iff {digit : Byte} {octave : Nat} : octaveDigit digit = some octave
    ↔ 0x30 ≤ digit.toNat ∧ digit.toNat ≤ 0x39 ∧ digit.toNat - 0x30 = octave := by
  simp [octaveDigit, and_assoc]

theorem noteInOctave_eq_some_iff {octave semitone : Nat} {b : Byte} : noteInOctave octave semitone = some b
    ↔ (octave + 1) * 12 + semitone ≤ 127 ∧ BitVec.ofNat 8 ((octave + 1) * 12 + semitone) = b := by
  simp [noteInOctave]

/-- `chars` is a name of the note `n`: one of the seventeen and an octave digit, with a number up to 127 (R94, R95). -/
def IsNameOf (chars : List Byte) (n : Nat) : Prop :=
  ∃ name semitone digit, (name, semitone) ∈ namesOfSemitones ∧ chars = name ++ [digit] ∧
    0x30 ≤ digit.toNat ∧ digit.toNat ≤ 0x39 ∧ (digit.toNat - 0x30 + 1) * 12 + semitone ≤ 127 ∧
    n = (digit.toNat - 0x30 + 1) * 12 + semitone

theorem noteNameToNumber_of_isNameOf {chars : List Byte} {n : Nat} (h : IsNameOf chars n) :
    noteNameToNumber chars = BitVec.ofNat 8 n := by
  obtain ⟨name, semitone, digit, hname, rfl, hlow, hhigh, hle, rfl⟩ := h
  rw [noteNameToNumber_append hname, octaveDigit_eq_some_iff.mpr ⟨hlow, hhigh, rfl⟩, Option.bind_some,
    noteInOctave_eq_some_iff.mpr ⟨hle, rfl⟩, Option.getD_some]

/-- A note with a number comes from a name of the table. -/
theorem isNameOf_of_namedNote {letter digit b : Byte} {accidental : Option Byte}
    (h : namedNote letter accidental digit = some b) : ∃ n, IsNameOf (letter :: accidental.toList ++ [digit]) n := by
  obtain ⟨natural, hletter, semitone, hsemitone, octave, hoctave, hnumber⟩ :
      ∃ natural, letterSemitone letter = some natural ∧
        ∃ semitone, withAccidental letter natural accidental = some semitone ∧
          ∃ octave, octaveDigit digit = some octave ∧ noteInOctave octave semitone = some b := by
    simpa [namedNote, Option.bind_eq_some_iff] using h
  obtain ⟨hlow, hhigh, rfl⟩ := octaveDigit_eq_some_iff.mp hoctave
  exact ⟨_, _, semitone, digit,
    mem_namesOfSemitones_of_bind _ (mem_noteLetters_of_letterSemitone hletter) _
      (mem_accidentals_of_withAccidental hsemitone) _ (by simp [hletter, hsemitone]),
    rfl, hlow, hhigh, (noteInOctave_eq_some_iff.mp hnumber).1, rfl⟩

theorem namedNote_of_not_isNameOf {letter digit : Byte} {accidental : Option Byte}
    (h : ¬∃ n, IsNameOf (letter :: accidental.toList ++ [digit]) n) : namedNote letter accidental digit = none :=
  Option.eq_none_iff_forall_ne_some.mpr fun _ hnote => h (isNameOf_of_namedNote hnote)

/-- What is no name has the number 255 (R89). -/
theorem noteNameToNumber_of_not_isNameOf {chars : List Byte} (h : ¬∃ n, IsNameOf chars n) :
    noteNameToNumber chars = 255#8 := by
  unfold noteNameToNumber
  split
  next letter digit => rw [namedNote_of_not_isNameOf (accidental := none) h, Option.getD_none]
  next letter accidental digit => rw [namedNote_of_not_isNameOf (accidental := some accidental) h, Option.getD_none]
  next => rfl

theorem IsNameOf.bounds {chars : List Byte} {n : Nat} (h : IsNameOf chars n) : 12 ≤ n ∧ n ≤ 127 := by
  obtain ⟨name, semitone, digit, -, -, -, -, hle, rfl⟩ := h
  omega

/-! ### NOTE_NAME -/

/-- NOTE_NAME only responds (R55, R89). -/
theorem exec_noteName (chars : List Byte) (s : State) : exec (.noteName chars) s
    = .next (answered s [] (Response.value ((noteNameToNumber chars).setWidth 64))) :=
  congrArg _ (respond_eq_answered s _)

theorem exec_noteName_numbered {chars : List Byte} {n : Nat} (h : noteNameToNumber chars = BitVec.ofNat 8 n)
    (hn : n < 256) (s : State) : exec (.noteName chars) s = .next (answered s [] (numbered n)) := by
  have hresult : (BitVec.ofNat 8 n).setWidth 64 = BitVec.ofNat 64 n := by
    apply BitVec.eq_of_toNat_eq
    rw [BitVec.toNat_setWidth, BitVec.toNat_ofNat, BitVec.toNat_ofNat]
    omega
  rw [exec_noteName, h, hresult]
  rfl

/-- NOTE_NAME responds the number its characters are a name of, and 255 where they are no name. -/
theorem exec_noteName_cases (chars : List Byte) (s : State) : ∃ n,
    exec (.noteName chars) s = .next (answered s [] (numbered n)) ∧
      (IsNameOf chars n ∨ (n = 255 ∧ ¬∃ m, IsNameOf chars m)) := by
  by_cases h : ∃ n, IsNameOf chars n
  · obtain ⟨n, hname⟩ := h
    have hn : n < 256 := hname.bounds.2.trans_lt (by decide)
    exact ⟨n, exec_noteName_numbered (noteNameToNumber_of_isNameOf hname) hn s, .inl hname⟩
  · exact ⟨255, exec_noteName_numbered (noteNameToNumber_of_not_isNameOf h) (by decide) s, .inr ⟨rfl, h⟩⟩

/-- Settles O48, by the two cases of `exec_noteName_cases`. -/
theorem noteNameGivesTheNumber : Obligations.NoteNameGivesTheNumber := by
  refine ⟨fun w op => decode_eq_ok_iff.mpr (.noteName op), fun chars s => ?_⟩
  obtain ⟨n, hexec, hname | ⟨hn, hnone⟩⟩ := exec_noteName_cases chars s
  · exact ⟨n, hexec, .inl hname⟩
  · refine ⟨n, hexec, .inr ⟨hn, ?_⟩⟩
    rintro ⟨name, semitone, digit, hname, hchars, hlow, hhigh, hle⟩
    exact hnone ⟨_, name, semitone, digit, hname, hchars, hlow, hhigh, hle, rfl⟩

/-- The response tells the number: `zext_64` loses nothing (R55). -/
theorem eq_of_answered_numbered {s : State} {m n : Nat} (hm : m < 256) (hn : n < 256)
    (h : (.next (answered s [] (numbered m)) : Host.Outcome State Fault Refusal) = .next (answered s [] (numbered n))) :
    m = n := by
  have hresult : BitVec.ofNat 64 m = BitVec.ofNat 64 n := by
    simpa [answered, numbered] using h
  rw [BitVec.toNat_eq, BitVec.toNat_ofNat, BitVec.toNat_ofNat] at hresult
  omega

theorem exists_name_of_semitone : ∀ k < 12, ∃ entry ∈ namesOfSemitones, entry.2 = k := by
  decide

/-- Every note of 12..127 has a name: the remainder by 12 is the semitone, the quotient the octave plus one (R94). -/
theorem exists_isNameOf {n : Nat} (hlow : 12 ≤ n) (hhigh : n ≤ 127) : ∃ chars, IsNameOf chars n := by
  obtain ⟨⟨name, semitone⟩, hname, hsemitone⟩ := exists_name_of_semitone (n % 12) (Nat.mod_lt _ (by decide))
  replace hsemitone : semitone = n % 12 := hsemitone
  refine ⟨_, name, semitone, BitVec.ofNat 8 (0x30 + (n / 12 - 1)), hname, rfl, ?_⟩
  rw [BitVec.toNat_ofNat]
  omega

/-- Settles O50: the notes from 12 have names (`exists_isNameOf`), and a response up to 127 is the number of a name. -/
theorem namedNotesAreTwelveAndUp : Obligations.NamedNotesAreTwelveAndUp := by
  intro n s hn
  constructor
  · intro hlow
    obtain ⟨chars, hname⟩ := exists_isNameOf hlow hn
    exact ⟨chars, exec_noteName_numbered (noteNameToNumber_of_isNameOf hname) (by omega) s⟩
  · rintro ⟨chars, hexec⟩
    obtain ⟨m, hm, hname | ⟨rfl, -⟩⟩ := exec_noteName_cases chars s
    · obtain ⟨hlow, hhigh⟩ := hname.bounds
      obtain rfl : m = n := eq_of_answered_numbered (by omega) (by omega) (hm.symm.trans hexec)
      exact hlow
    · have h255 : 255 = n := eq_of_answered_numbered (by decide) (by omega) (hm.symm.trans hexec)
      omega

/-- Names of one semitone respond the same in every octave. -/
theorem exec_noteName_congr {name name' : List Byte} {semitone : Nat} (h : (name, semitone) ∈ namesOfSemitones)
    (h' : (name', semitone) ∈ namesOfSemitones) (digit : Byte) (s : State) :
    exec (.noteName (name ++ [digit])) s = exec (.noteName (name' ++ [digit])) s := by
  rw [exec_noteName, exec_noteName, noteNameToNumber_append h, noteNameToNumber_append h']

/-- Settles O49: each flat is in the table with the semitone of its sharp, and no accidental rule makes Cb or Fb. -/
theorem flatsHaveTheNumberOfTheirSharps : Obligations.FlatsHaveTheNumberOfTheirSharps := by
  intro digit s
  have same (flat sharp : List Byte) (semitone : Nat) (hflat : (flat, semitone) ∈ namesOfSemitones)
      (hsharp : (sharp, semitone) ∈ namesOfSemitones) := exec_noteName_congr hflat hsharp digit s
  have invalid (letter : Byte) (h : noteNameToNumber [letter, 0x62, digit] = BitVec.ofNat 8 255) :=
    exec_noteName_numbered h (by decide) s
  exact ⟨same [0x44, 0x62] [0x43, 0x23] 1 (by decide) (by decide),
    same [0x45, 0x62] [0x44, 0x23] 3 (by decide) (by decide),
    same [0x47, 0x62] [0x46, 0x23] 6 (by decide) (by decide),
    same [0x41, 0x62] [0x47, 0x23] 8 (by decide) (by decide),
    same [0x42, 0x62] [0x41, 0x23] 10 (by decide) (by decide),
    invalid 0x43 rfl, invalid 0x46 rfl⟩

/-! ### NOTE_FREQ -/

theorem exec_noteFreq (note : Byte) (s : State) :
    exec (.noteFreq note) s = .next (answered s [] (freqResponse s.cfg.setup.freqFn note s.freeResult)) :=
  congrArg _ (respond_eq_answered s _)

theorem freqResponse_of_le (freqFn : Vector Word64 128) {note : Byte} (unstated : Word64) (h : note.toNat ≤ 127) :
    freqResponse freqFn note unstated = ⟨true, freqFn[note.toNat]'(Nat.lt_succ_of_le h)⟩ :=
  dif_pos (Nat.lt_succ_of_le h)

/-- Settles O51: the response by the range of the note. -/
theorem noteFreqRespondsTheFrequency : Obligations.NoteFreqRespondsTheFrequency := by
  refine ⟨fun w op => decode_eq_ok_iff.mpr (.noteFreq op), fun note s => ⟨_, exec_noteFreq note s, ?_, ?_⟩⟩
  · exact fun h => freqResponse_of_le _ _ h
  · intro h
    rw [← Bool.not_eq_true, freqResponse_hasResult]
    omega

/-! ### The laws of FREQ_FN (R98) -/

/-- The exact frequency of a note, `f(n)` of R98. -/
noncomputable def frequency (n : Nat) : ℝ := 440 * (2 : ℝ) ^ (((n : ℝ) - 69) / 12)

theorem frequency_pos (n : Nat) : 0 < frequency n := by
  unfold frequency
  positivity

/-- `freqPow12` is the twelfth power it is named after (log 13). -/
theorem frequency_pow_twelve (n : Nat) : frequency n ^ 12 = (freqPow12 n : ℝ) := by
  have hroot : ((2 : ℝ) ^ (((n : ℝ) - 69) / 12)) ^ 12 = (2 : ℝ) ^ ((n : ℝ) - 69) := by
    rw [← Real.rpow_mul_natCast (by norm_num)]
    norm_num
  rw [frequency, mul_pow, hroot]
  by_cases h : 69 ≤ n
  · have hexp : (n : ℝ) - 69 = ((n - 69 : Nat) : ℝ) := by push_cast [h]; rfl
    rw [hexp, Real.rpow_natCast, freqPow12, if_pos h]
    norm_num
  · have hexp : (n : ℝ) - 69 = -((69 - n : Nat) : ℝ) := by push_cast [Nat.le_of_not_le h]; ring
    rw [hexp, Real.rpow_neg (by norm_num), Real.rpow_natCast, freqPow12, if_neg h, ← div_eq_mul_inv]
    norm_num

/-- Comparing twelfth powers compares the values (log 13): both sides are at least 0, or both are negated. -/
theorem mul_le_of_scaledLe {f : ℝ} {f12 a b : Rat} (hf : 0 < f) (hpow : f ^ 12 = (f12 : ℝ))
    (h : scaledLe f12 a b = true) : (a : ℝ) * f ≤ b := by
  have hscaled : ((a : ℝ) * f) ^ 12 = ((a ^ 12 * f12 : Rat) : ℝ) := by
    rw [mul_pow, hpow]
    push_cast
    rfl
  unfold scaledLe at h
  split at h
  next ha =>
    simp only [Bool.and_eq_true, decide_eq_true_eq] at h
    obtain ⟨hb, hle⟩ := h
    refine le_of_pow_le_pow_left₀ (n := 12) (by decide) (by exact_mod_cast hb) ?_
    rw [hscaled]
    exact_mod_cast hle
  next ha =>
    simp only [Bool.or_eq_true, decide_eq_true_eq] at h
    have hneg : (a : ℝ) * f ≤ 0 := mul_nonpos_of_nonpos_of_nonneg (by exact_mod_cast not_lt.mp ha) hf.le
    obtain hb | hle := h
    · exact hneg.trans (by exact_mod_cast hb)
    · have hneg_le : -(b : ℝ) ≤ -((a : ℝ) * f) := by
        refine le_of_pow_le_pow_left₀ (n := 12) (by decide) (neg_nonneg.mpr hneg) ?_
        rw [Even.neg_pow (by decide), Even.neg_pow (by decide), hscaled]
        exact_mod_cast hle
      exact neg_le_neg_iff.mp hneg_le

/-- A pattern within tolerance of a note is a finite value within FREQ_TOL of its frequency (R98 law 2). -/
theorem abs_sub_frequency_le {tol : Rat} {n : Nat} {x : Word64} (h : withinTolerance tol n x = true) :
    ∃ v, binary64Value x = some v ∧ |(v : ℝ) - frequency n| ≤ (tol : ℝ) * frequency n := by
  unfold withinTolerance at h
  split at h
  next => cases h
  next v hv =>
    obtain ⟨hlow, hhigh⟩ := (Bool.and_eq_true _ _).mp h
    have hlow := mul_le_of_scaledLe (frequency_pos n) (frequency_pow_twelve n) hlow
    have hhigh := mul_le_of_scaledLe (frequency_pos n) (frequency_pow_twelve n) hhigh
    push_cast at hlow hhigh
    exact ⟨v, hv, abs_le.mpr ⟨by linarith, by linarith⟩⟩

/-- The laws of R98 that every configuration meets (R7). -/
theorem setup_freqLaws (p : Setup) : 0 < p.freqTol ∧ p.freqFn[69] = binary64Of440 ∧
    ∀ n (h : n < 128), withinTolerance p.freqTol n p.freqFn[n] = true := by
  have h := p.ok
  simp only [setupOk, freqLawsOk, Bool.and_eq_true, decide_eq_true_eq, beq_iff_eq, List.all_eq_true] at h
  obtain ⟨-, ⟨htol, h69⟩, hall⟩ := h
  exact ⟨htol, h69, fun n hn => hall ⟨n, hn⟩ (List.mem_finRange _)⟩

/-- Settles O52: a configuration carries the laws (`setup_freqLaws`), whose tolerance is that of the exact frequency
(`abs_sub_frequency_le`), and the response reads the note's entry of the table. -/
theorem frequenciesObeyTheirLaws : Obligations.FrequenciesObeyTheirLaws := by
  intro note s hnote
  obtain ⟨htol, h69, hall⟩ := setup_freqLaws s.cfg.setup
  obtain ⟨v, hv, hlaw⟩ := abs_sub_frequency_le (hall note.toNat (Nat.lt_succ_of_le hnote))
  refine ⟨_, v, fun s' hcfg => ?_, fun h => ?_, hv, htol, hlaw⟩
  · rw [exec_noteFreq, freqResponse_of_le _ _ hnote, hcfg]
  · simpa [h, binary64Of440] using h69

end Sys2Proof.Proofs
end

section
/-! Proofs for reset and hazards (spec/70_reset_and_hazards.md): a command before a transport that accepts some bytes,
and the reset that abandons it. -/

namespace Sys2Proof.Proofs

open Sys2Proof.Machine Sys2Proof.Claims

/-! ### A command abandoned by reset (R115) -/

/-- A transport that accepts `k` bytes takes the first `k` of those it is offered; while some are left the block is busy
and has given no response (R48, R112). -/
theorem transmit_of_credit {s : State} {k : Nat} (hc : s.txCredit = .bytes k) (bytes : List Byte) (r : Response) :
    (s.transmit bytes r).tx = s.tx ++ bytes.take k ∧
      (k < bytes.length →
        (s.transmit bytes r).cmdReady = false ∧ (s.transmit bytes r).responses = s.responses) := by
  by_cases hk : bytes.length ≤ k
  · simp [State.transmit, hc, hk, List.take_of_length_le hk]
  · simp [State.transmit, hc, hk, State.cmdReady]

/-- Delivery in front of a transport that accepts `k` bytes, in terms of the command's own bytes. -/
theorem deliver_of_credit {s t : State} {bytes : List Byte} {k : Nat} (hc : t.txCredit = .bytes k)
    (htx : t.tx = s.tx ++ bytes) :
    (s.deliver t).tx = s.tx ++ bytes.take k ∧
      (k < bytes.length → (s.deliver t).cmdReady = false ∧ (s.deliver t).responses = s.responses) := by
  have hbytes : t.tx.drop s.tx.length = bytes := by simp [htx]
  rw [State.deliver, hbytes]
  exact transmit_of_credit (s := { t with tx := s.tx, responses := s.responses }) hc bytes _

/-- A step of a ready block in front of a transport that accepts `k` bytes puts the first `k` bytes of the presented
command on the wire; while some are left the block is busy and has given no response. -/
theorem step_command_of_credit {s u : State} {w : CommandWord} {rest : List Input} {bytes : List Byte} {k : Nat}
    (h : s.Inv) (hf : s.inFlight = none) (hi : s.inputs = .command w :: rest) (hc : s.txCredit = .bytes k)
    (hu : runCommand w (taken s rest) = .next u) (htx : u.tx = s.tx ++ bytes) :
    ∃ t, step s = .next t ∧ t.inputs = rest ∧ t.cfg = s.cfg ∧ t.wire = s.wire ++ bytes.take k ∧
      (k < bytes.length → t.cmdReady = false ∧ t.responses = s.responses) := by
  have hafter : afterWord (taken s rest) w = u :=
    Host.Outcome.next.inj ((runCommand_eq_afterWord w (taken s rest)).symm.trans hu)
  obtain ⟨-, hcredit, hinputs⟩ := afterWord_interface (taken s rest) w
  rw [hafter] at hcredit hinputs
  obtain ⟨htaken, hbusy⟩ := deliver_of_credit (s := taken s rest) (hcredit.trans hc) htx
  have hbefore : ((taken s rest).deliver u).txBefore = s.txBefore := (deliver_onlyAppends hu).txBefore
  refine ⟨(taken s rest).deliver u, ?_, (deliver_inputs _ u).trans hinputs, ?_, ?_, hbusy⟩
  · rw [step_command h hf hi, hafter]
  · rw [deliver_cfg, runCommand_cfg hu]
    rfl
  · rw [State.wire, hbefore, htaken, State.wire, List.append_assoc]
    rfl

/-- Settles O13: the first step puts the accepted bytes on the wire (`step_command_of_credit`), and the second takes the
`rst` that stands next, ready or not, and leaves the wire as it was (`assertReset_wire`). -/
theorem abandonedCommandLeavesItsPrefix : Obligations.AbandonedCommandLeavesItsPrefix := by
  intro s u w rest bytes k h hf hi hc hu htx
  obtain ⟨t, hcommand, hinputs, hcfg, hwire, hbusy⟩ := step_command_of_credit h hf hi hc hu htx
  have hrst : step t = .next (taken t rest).assertReset :=
    step_rst (step_inv h hcommand) (by rw [hinputs]; rfl)
  exact ⟨t, (taken t rest).assertReset, hcommand, hrst, (assertReset_wire _).trans hwire, hbusy,
    rfl, rfl, rfl, assertReset_count _, rfl, rfl, rfl, hcfg, rfl⟩

end Sys2Proof.Proofs
end
